-- ==== Sys2Proof/Word.lean ====
section
/-! DEFINITION. The bit-vector types of the CA2026 core: registers and data words (R8, R13), register
indexes, fetch addresses, immediates and opcode numbers. The hardware has no bytes (R36): the smallest
addressable unit of either memory is the 32-bit word. -/

namespace Sys2Proof

/-- A register, an `alu_result`, a `mem_data`, a data word or an instruction word: `XLEN` = `ILEN` = 32
bits (R8). -/
abbrev Word := BitVec 32

/-- A register index, `RIDXW` = 4 bits (R8). -/
abbrev RegIdx := BitVec 4

/-- A fetch address, `PCW` = 12 bits, counting instructions (R16, R31). -/
abbrev Addr := BitVec 12

/-- The immediate or branch-target field, `IMMW` = 12 bits (R8, R48). -/
abbrev Imm := BitVec 12

/-- The opcode field, `OPW` = 8 bits (R8, R48). -/
abbrev Opcode := BitVec 8

end Sys2Proof
end

