-- ==== Sys2Proof/Config.lean ====
section
/-! DEFINITION. What a launch fixes and no rule changes (R8, R33, R109, R148): the model arguments `OPC`,
`LINK_OFFSET` and `ALU`, each with the spec's default, and the two memory images. `NCORES` is the length
of the list of cores of a machine's launch. -/

namespace Sys2Proof

/-- `LINK_REG` (R8, R14): the register a jump-and-link writes. `ZERO_REG` (R8) is written `0#4`. -/
abbrev linkReg : RegIdx := 15#4

/-- The opcode map `OPC` (R8, R50): one number per mnemonic, a model argument. Plain data, carried by a
launch, so that a statement over all states is a statement over all opcode maps. -/
structure Opc where
  addi : Opcode
  subi : Opcode
  lw   : Opcode
  beq  : Opcode
  blt  : Opcode
  jal  : Opcode
  halt : Opcode
deriving DecidableEq, Repr

namespace Opc

/-- The default `OPC` of R50 (decision D5 of the spec). -/
def reference : Opc :=
  { addi := 0x00#8, subi := 0x01#8, lw := 0x02#8, beq := 0x03#8, blt := 0x04#8, jal := 0x05#8, halt := 0x06#8 }

/-- The numbers in the order of R50's table. -/
def numbers (o : Opc) : List Opcode := [o.addi, o.subi, o.lw, o.beq, o.blt, o.jal, o.halt]

end Opc

/-- The model argument `LINK_OFFSET`, in {1, 2} (R8, R99). -/
inductive LinkOffset where
  | one
  | two
deriving DecidableEq, Repr

/-- The number a `LinkOffset` stands for. -/
def LinkOffset.value : LinkOffset → Addr
  | .one => 1#12
  | .two => 2#12

/-- The instructions whose `alu_result` the argument `ALU` gives (R107, R118): `ADDI`, `SUBI` and the
data address of `LW`. -/
inductive AluOp where
  | addi
  | subi
  | lw
deriving DecidableEq, Repr

/-- The model argument `ALU` (R8, R107), as plain data: the default of R102 to R104, or another total
function, about which nothing is known but that it depends on its arguments only. -/
inductive AluChoice where
  | reference
  | other (n : Nat)
deriving DecidableEq, Repr

/-- The functions `AluChoice.other` stands for: `ALU : opcode × operand(32) × imm(12) → result(32)` (R107).
No body: nothing can be proved of their values. DESIGN CHOICE (log 4). -/
opaque Config.otherAlu : Nat → AluOp → Word → Imm → Word

/-- The model arguments of one core (R8). DESIGN CHOICE (log 3): plain data, held in State. -/
structure Params where
  opc        : Opc
  linkOffset : LinkOffset
  alu        : AluChoice
deriving DecidableEq, Repr

/-- The defaults of R8. -/
def Params.reference : Params := { opc := .reference, linkOffset := .two, alu := .reference }

/-- The two images as parsed lists of words (R30, R32, R34): entry `n` is the word at word address `n`,
`PLEN` and `DLEN` are the lengths, and an address at or above the length holds nothing (R30, R35). A list
indexed by its positions has one form only, so equal memories are equal data. DESIGN CHOICE (log 5). -/
structure Memory where
  imem : List Word
  dmem : List Word
deriving DecidableEq, Repr

namespace Memory

/-- Nothing loaded. -/
def empty : Memory := { imem := [], dmem := [] }

/-- `PLEN` (R8, R30). -/
def plen (m : Memory) : Nat := m.imem.length

/-- `DLEN` (R8, R34). -/
def dlen (m : Memory) : Nat := m.dmem.length

end Memory

/-- What the host supplies before cycle 0 (R33, R148). -/
structure Launch where
  memory : Memory
  params : Params
deriving DecidableEq, Repr

/-- What the host supplies to a machine of several cores (R128): the data image all of them read (R46), and
for each core its own instruction image and model arguments (log 13). -/
structure MachineLaunch where
  dmem  : List Word
  cores : List (List Word × Params)
deriving DecidableEq, Repr

/-- `NCORES` (R8). -/
def MachineLaunch.ncores (m : MachineLaunch) : Nat := m.cores.length

/-- The launch of each core (R128). -/
def MachineLaunch.launches (m : MachineLaunch) : List Launch :=
  m.cores.map fun c => { memory := { imem := c.1, dmem := m.dmem }, params := c.2 }

end Sys2Proof
end

