-- ==== Sys2Proof/Syntax.lean ====
section
/-! DEFINITION. Instructions: the instruction value with its five fields (R49) and the seven instructions,
one constructor per row of the opcode table (R50). -/

namespace Sys2Proof

/-- The instruction value of R49, `opcode`, `rd`, `rs`, `rt`, `imm`: what a stage register holds (R17).
Any opcode number may stand in it, also one outside the map (R28). -/
structure Fields where
  opcode : Opcode
  rd     : RegIdx
  rs     : RegIdx
  rt     : RegIdx
  imm    : Imm
deriving DecidableEq, Repr

/-- The seven instructions (R50). Every constructor carries all four operand fields: a field the
instruction does not use has no effect (R53) and still travels in the stage register (R17, R53). DESIGN CHOICE (log 9). -/
inductive Instr where
  /-- `ADDI Rd,Rs,imm` (R102); `rt` is ignored. -/
  | addi (rd rs rt : RegIdx) (imm : Imm)
  /-- `SUBI Rd,Rs,imm` (R103); `rt` is ignored. -/
  | subi (rd rs rt : RegIdx) (imm : Imm)
  /-- `LW Rd,imm(Rs)` (R104); `rt` is ignored. -/
  | lw (rd rs rt : RegIdx) (imm : Imm)
  /-- `BEQ Rs,Rt,target=imm` (R96); `rd` is ignored. -/
  | beq (rd rs rt : RegIdx) (imm : Imm)
  /-- `BLT Rs,Rt,target=imm` (R97); `rd` is ignored. -/
  | blt (rd rs rt : RegIdx) (imm : Imm)
  /-- `JAL target=imm` (R98); `rd`, `rs` and `rt` are ignored. -/
  | jal (rd rs rt : RegIdx) (imm : Imm)
  /-- `HALT` (R105); every field is ignored. -/
  | halt (rd rs rt : RegIdx) (imm : Imm)
deriving DecidableEq, Repr

end Sys2Proof
end

