-- ==== Sys2Proof/WellFormed.lean ====
section
/-! DEFINITION. The checks on what a launch supplies and on an instruction value: the opcode map is
injective (R8), there is a core (R8), the images fit their address spaces (R30, R34), the opcode of an instruction value is in
the map (R28, R54). Every term of `Instr` is an instruction: all field values of a known opcode are legal
(R53, R54), and the widths stand in the types. -/

namespace Sys2Proof

/-- `OPC` is an injective map (R8). -/
def Opc.wf (o : Opc) : Bool := decide o.numbers.Nodup

/-- The opcode is one of the map's seven (R54): a word with another opcode is not an instruction. -/
def Fields.wf (o : Opc) (f : Fields) : Bool := o.numbers.contains f.opcode

/-- At most 4096 instruction words (R30) and at most 2^32 data words (R8, R34). -/
def Memory.wf (m : Memory) : Bool := decide (m.plen ≤ 4096) && decide (m.dlen ≤ 2 ^ 32)

/-- The model arguments a launch may have: `LinkOffset` and `AluChoice` have no illegal value. -/
def Params.wf (p : Params) : Bool := p.opc.wf

/-- A launch the model accepts (V18 of 93_implementation_defined.md). -/
def Launch.wf (l : Launch) : Bool := l.memory.wf && l.params.wf

/-- A launch of a machine the model accepts: at least one core (R8, `NCORES`), each with a launch it accepts. -/
def MachineLaunch.wf (m : MachineLaunch) : Bool := decide (1 ≤ m.ncores) && m.launches.all Launch.wf

end Sys2Proof
end

