-- ==== Sys2Proof/Decode.lean ====
section
/-! DEFINITION. The instruction word: field positions (R48, R49), the opcode classes (R51), decoding, which
rejects an unknown opcode by name (R54), what the decoder supplies for each instruction (R55), the encoder,
the assembler's forms (R57) and the opcode table's reading of a word. -/

namespace Sys2Proof

/-- `decode(w)` of R49: the five fields at the bits of R48. -/
def decodeFields (w : Word) : Fields :=
  { opcode := w.extractLsb' 24 8
    rd     := w.extractLsb' 20 4
    rs     := w.extractLsb' 16 4
    rt     := w.extractLsb' 12 4
    imm    := w.extractLsb' 0 12 }

/-- The word `opcode ++ rd ++ rs ++ rt ++ imm` (R49), the first field most significant (R10, R48). -/
def Fields.toWord (f : Fields) : Word := f.opcode ++ f.rd ++ f.rs ++ f.rt ++ f.imm

namespace Opc

/-- `is_load` (R51). -/
def isLoad (o : Opc) (op : Opcode) : Bool := op == o.lw

/-- `is_jal` (R51). -/
def isJal (o : Opc) (op : Opcode) : Bool := op == o.jal

/-- `is_beq` (R51). -/
def isBeq (o : Opc) (op : Opcode) : Bool := op == o.beq

/-- `is_blt` (R51). -/
def isBlt (o : Opc) (op : Opcode) : Bool := op == o.blt

/-- `is_control` (R51). -/
def isControl (o : Opc) (op : Opcode) : Bool := o.isBeq op || o.isBlt op || o.isJal op

/-- `is_halt` (R51). -/
def isHalt (o : Opc) (op : Opcode) : Bool := op == o.halt

/-- `known` (R51). -/
def known (o : Opc) (op : Opcode) : Bool := o.numbers.contains op

/-- The write-intent column of R55, by opcode number. -/
def writesReg (o : Opc) (op : Opcode) : Bool := op == o.addi || op == o.subi || op == o.lw || op == o.jal

/-- Whether the instruction requests `rs` from `resolve` (R55). -/
def readsRs (o : Opc) (op : Opcode) : Bool :=
  op == o.addi || op == o.subi || op == o.lw || op == o.beq || op == o.blt

/-- Whether the instruction requests `rt` from `resolve` (R55). -/
def readsRt (o : Opc) (op : Opcode) : Bool := op == o.beq || op == o.blt

end Opc

/-- Why a word is not an instruction. -/
inductive DecodeError where
  /-- The opcode is outside the map (R54); carries it (R131). -/
  | unknownOpcode (opcode : Opcode)
deriving DecidableEq, Repr

/-- The instruction an instruction value stands for, none when the opcode is outside the map (R50, R54). -/
def Fields.instr? (o : Opc) (f : Fields) : Option Instr :=
  if f.opcode = o.addi then some (.addi f.rd f.rs f.rt f.imm)
  else if f.opcode = o.subi then some (.subi f.rd f.rs f.rt f.imm)
  else if f.opcode = o.lw then some (.lw f.rd f.rs f.rt f.imm)
  else if f.opcode = o.beq then some (.beq f.rd f.rs f.rt f.imm)
  else if f.opcode = o.blt then some (.blt f.rd f.rs f.rt f.imm)
  else if f.opcode = o.jal then some (.jal f.rd f.rs f.rt f.imm)
  else if f.opcode = o.halt then some (.halt f.rd f.rs f.rt f.imm)
  else none

/-- Decoding, total on every word (R49, R54). -/
def decode (o : Opc) (w : Word) : Except DecodeError Instr :=
  match (decodeFields w).instr? o with
  | some i => .ok i
  | none => .error (.unknownOpcode (decodeFields w).opcode)

/-- The instruction value of an instruction: its opcode number in the map (R50) and its fields. -/
def Instr.fields (o : Opc) : Instr → Fields
  | .addi rd rs rt imm => ⟨o.addi, rd, rs, rt, imm⟩
  | .subi rd rs rt imm => ⟨o.subi, rd, rs, rt, imm⟩
  | .lw rd rs rt imm => ⟨o.lw, rd, rs, rt, imm⟩
  | .beq rd rs rt imm => ⟨o.beq, rd, rs, rt, imm⟩
  | .blt rd rs rt imm => ⟨o.blt, rd, rs, rt, imm⟩
  | .jal rd rs rt imm => ⟨o.jal, rd, rs, rt, imm⟩
  | .halt rd rs rt imm => ⟨o.halt, rd, rs, rt, imm⟩

/-- The word of an instruction (R48, R50). -/
def encode (o : Opc) (i : Instr) : Word := (i.fields o).toWord

/-- The `reg_write` column of R55. -/
def Instr.regWrite : Instr → Bool
  | .addi .. | .subi .. | .lw .. | .jal .. => true
  | .beq .. | .blt .. | .halt .. => false

/-- The register presented on port A (R55, R77): `rs` when the instruction reads it, else index 0. -/
def Instr.portA : Instr → RegIdx
  | .addi _ rs _ _ | .subi _ rs _ _ | .lw _ rs _ _ | .beq _ rs _ _ | .blt _ rs _ _ => rs
  | .jal .. | .halt .. => 0#4

/-- The register presented on port B (R55, R77): `rt` when the instruction reads it, else index 0. -/
def Instr.portB : Instr → RegIdx
  | .beq _ _ rt _ | .blt _ _ rt _ => rt
  | .addi .. | .subi .. | .lw .. | .jal .. | .halt .. => 0#4

namespace Asm

/-- The field of a decimal immediate or target: `-k` with 1 ≤ k ≤ 2048 is written as `4096 - k` (R57), 0 to 4095
as it is. R57 gives no field for any other number; there the function takes it modulo 4096: DESIGN CHOICE
(log 21). -/
def field (n : Int) : Imm := BitVec.ofInt 12 n

/-- `ADDI Rd,Rs,imm` (R57); an assembler writes 0 into an unused field (R53). -/
def addi (rd rs : RegIdx) (imm : Int) : Instr := .addi rd rs 0#4 (field imm)

/-- `SUBI Rd,Rs,imm` (R57). -/
def subi (rd rs : RegIdx) (imm : Int) : Instr := .subi rd rs 0#4 (field imm)

/-- `LW Rd,imm(Rs)` (R57). -/
def lw (rd : RegIdx) (imm : Int) (rs : RegIdx) : Instr := .lw rd rs 0#4 (field imm)

/-- `BEQ Rs,Rt,target=N` (R57). -/
def beq (rs rt : RegIdx) (target : Addr) : Instr := .beq 0#4 rs rt target

/-- `BLT Rs,Rt,target=N` (R57). -/
def blt (rs rt : RegIdx) (target : Addr) : Instr := .blt 0#4 rs rt target

/-- `JAL target=N` (R57). -/
def jal (target : Addr) : Instr := .jal 0#4 0#4 0#4 target

/-- `HALT` (R57). -/
def halt : Instr := .halt 0#4 0#4 0#4 0#12

end Asm

/-- The word whose bits the opcode table numbers as `w`: the table's bit 0 is bit 0 of the 32-bit word
(R10, R48), and bits above `nbits` are 0. -/
def tableWord (nbits w : Nat) : Word := BitVec.ofNat 32 (w % 2 ^ nbits)

/-- The instruction the decoder reads from a word of the opcode table, under the default `OPC` (R50). -/
def decodeTableWord (nbits w : Nat) : Option Instr :=
  match decode .reference (tableWord nbits w) with
  | .ok i => some i
  | .error _ => none

end Sys2Proof
end

