-- ==== Sys2Proof/Machine/State.lean ====
section
/-! DEFINITION. The state of one core (R13 to R29, R109), as plain data: the general registers, the fetch
address and the fetch state, the three stage registers, `last_committed_register`, the latch between fetch
and decode, the flags of `ENV`, the event list, and what the launch supplied. Also the result types of
`CORE`'s operations (R12), the failures (R131) and the refusals. -/

namespace Sys2Proof.Machine

/-- The failures of R131, each with its recorded value. A failing cycle records one in `failed` and the
core takes no further step (R123, R138): `step` answers the recorded failure as its fault from then on.
All four are SAFE: a run that stops satisfies no claim about a next state. -/
inductive Fault where
  /-- `resolve_branch`, on an opcode outside the map (R86, R132); the opcode. Safe: the word is surfaced,
  never run as a no-operation (R54). -/
  | encodingError (opcode : Opcode)
  /-- `resolve` step 3, when `lcr` differs from the destination of the instruction in `WB` (R74, R133);
  `lcr` and that destination. Safe: no value is forwarded. -/
  | hazardPolicyViolation (lcr dest : RegIdx)
  /-- Decode, of a word fetched from an address not below `PLEN` (R119, R134); the address. Safe: no word
  is invented. -/
  | fetchOutOfImage (addr : Addr)
  /-- The memory stage, for a load whose address is not below `DLEN` (R115, R135); the address. Safe: no
  value is invented. -/
  | dataAddressOutOfImage (addr : Word)
deriving DecidableEq, Repr

/-- The code of a failure (R131). -/
def Fault.code : Fault → Nat
  | .encodingError _ => 1
  | .hazardPolicyViolation _ _ => 2
  | .fetchOutOfImage _ => 3
  | .dataAddressOutOfImage _ => 4

/-- Why the model gives an instruction no meaning. Raised by no arm: every instruction has its meaning. -/
inductive Refusal where
  /-- Dispatch, for an instruction without a meaning. Safe: nothing is claimed of it. -/
  | notModelled (mnemonic : String)
deriving DecidableEq, Repr

/-- A stage register (R17). DEDUCED (log 17): the widths of R17's field table, 98 bits in all, where its text
says 94. -/
structure Stage where
  valid     : Bool
  instr     : Fields
  regWrite  : Bool
  aluResult : Word
  memData   : Word
deriving DecidableEq, Repr

/-- A bubble (R18) as `ENV` writes it: every other field 0 (R29, R116). -/
def Stage.bubble : Stage :=
  { valid := false, instr := ⟨0#8, 0#4, 0#4, 0#4, 0#12⟩, regWrite := false, aluResult := 0#32, memData := 0#32 }

/-- The fetch state `fs` (R24). -/
inductive FetchState where
  | sequential
  | redirected (target : Addr)
deriving DecidableEq, Repr

/-- `IFID`, the latch between fetch and decode (R26). -/
structure IfId where
  valid : Bool
  word  : Word
  ipc   : Addr
  oob   : Bool
deriving DecidableEq, Repr

/-- No word in decode (R26, R120). -/
def IfId.bubble : IfId := { valid := false, word := 0#32, ipc := 0#12, oob := false }

/-- `ForwardResult` (R12): three forms; a failure is a separate outcome (C2 of 90_conflicts.md). -/
inductive ForwardResult where
  | value (v : Word)
  | stallRequired
  | notFound
deriving DecidableEq, Repr

/-- The encoder's output `sel` (R62). -/
inductive Sel where
  | ex
  | mem
  | wb
  | none
deriving DecidableEq, Repr

/-- `FetchRedirect` (R12). -/
inductive FetchRedirect where
  | sequential (next : Addr)
  | redirected (target : Addr)
deriving DecidableEq, Repr

/-- An event of a run (R125). DEDUCED and DESIGN CHOICE (log 8). -/
inductive Event where
  /-- Register `d` received `v` at the end of cycle `c`. -/
  | commit (c : Nat) (d : RegIdx) (v : Word)
  /-- A control transfer resolved taken in cycle `c`; the next fetch address is `t`. -/
  | redirect (c : Nat) (t : Addr)
deriving DecidableEq, Repr

/-- The state of one core. -/
structure State where
  /-- The committed register file (R13, R15). -/
  x         : Vector Word 16
  /-- The fetch address register (R16). -/
  pc        : Addr
  /-- The fetch state (R24). -/
  fs        : FetchState
  /-- The Execute stage register (R17). -/
  ex        : Stage
  /-- The Memory stage register (R17). -/
  mem       : Stage
  /-- The Writeback stage register (R17). -/
  wb        : Stage
  /-- `last_committed_register` (R22). -/
  lcr       : RegIdx
  /-- The latch between fetch and decode (R26). -/
  ifid      : IfId
  /-- Set when a `HALT` has been decoded (R26, R120). -/
  fetchStop : Bool
  /-- Set when a `HALT` has committed (R26, R112). -/
  halted    : Bool
  /-- The failure reported, or none (R26, R138). -/
  failed    : Option Fault
  /-- The count of completed cycles (R26). -/
  cycle     : Nat
  /-- The events of the run so far, in cycle order (R125). -/
  events    : List Event
  /-- The two images (R30, R34): supplied by the launch, changed by no rule (R33). -/
  memory    : Memory
  /-- The model arguments (R8): supplied by the launch, changed by no rule. -/
  params    : Params
deriving DecidableEq, Repr

namespace State

/-- The state right after reset (R29), with nothing loaded and the default model arguments.
DESIGN CHOICE (log 6, 7). -/
def reset : State :=
  { x := Vector.replicate 16 0#32
    pc := 0#12
    fs := .sequential
    ex := .bubble
    mem := .bubble
    wb := .bubble
    lcr := 0#4
    ifid := .bubble
    fetchStop := false
    halted := false
    failed := none
    cycle := 0
    events := []
    memory := .empty
    params := .reference }

/-- A launch (R148): every piece of state at its reset value, with what the host supplied. -/
def launch (l : Launch) : State := { reset with memory := l.memory, params := l.params }

end State

end Sys2Proof.Machine
end

