-- ==== Sys2Proof/Machine/Ops.lean ====
section
/-! DEFINITION. The named operations over registers and memory (R11, R13, R30, R35), the raising of a
failure (R123, R138), and the parts of a cycle that do not depend on the instruction in decode: the memory
stage's input (R115), write-back (R112 to R114) and the fetch of a word (R121). -/

namespace Sys2Proof.Machine

/-- `x[i]` (R11): register 0 reads 0 always (R13). -/
def readReg (x : Vector Word 16) (i : RegIdx) : Word :=
  if i = 0#4 then 0#32 else x[i.toNat]

/-- `x[i] <- v` (R11): a write with `i` = 0 changes nothing (R13). -/
def writeReg (x : Vector Word 16) (i : RegIdx) (v : Word) : Vector Word 16 :=
  if i = 0#4 then x else x.set i.toNat v

/-- `IMemRead(addr)` (R11, R30). -/
def imemRead (m : Memory) (a : Addr) : Except Fault Word :=
  match m.imem[a.toNat]? with
  | some w => .ok w
  | none => .error (.fetchOutOfImage a)

/-- `MemRead(addr, 1)` (R11, R35). -/
def dmemRead (m : Memory) (a : Word) : Except Fault Word :=
  match m.dmem[a.toNat]? with
  | some w => .ok w
  | none => .error (.dataAddressOutOfImage a)

/-- The image with `w` at address `a`: replaced when an image word stands there, appended when `a` is the
first address above the image, unchanged when words between are missing. Used by the host's loading of a
word only: no instruction writes a memory (R30, R38). -/
def imemPlace (m : Memory) (a : Addr) (w : Word) : Memory :=
  if a.toNat < m.plen then { m with imem := m.imem.set a.toNat w }
  else if a.toNat = m.plen then { m with imem := m.imem ++ [w] }
  else m

/-- `raise F(info)` (R11): the failure is recorded in `failed` and no other write of the cycle takes
effect (R123, R138). This is what the hardware has in place of taking an exception (R130, R138); there is
no return from it (R139). DESIGN CHOICE (log 2): the failing cycle answers the state with the failure. -/
def raise (f : Fault) (s : State) : State := { s with failed := some f }

/-- `effective_destination(instr)` (R60), the link-register override included (R14). -/
def effectiveDestination (o : Opc) (f : Fields) : RegIdx :=
  if o.isJal f.opcode then linkReg else f.rd

/-- The new `MEM` (R115): `EX`, with the loaded word in `mem_data` for a valid load, whose read may raise
`DataAddressOutOfImage`. -/
def memInput (s : State) : Except Fault Stage :=
  if s.ex.valid && s.params.opc.isLoad s.ex.instr.opcode then
    match dmemRead s.memory s.ex.aluResult with
    | .ok w => .ok { s.ex with memData := w }
    | .error f => .error f
  else .ok s.ex

/-- The register and the value the instruction in `WB` commits, if any (R112). -/
def commitOf (s : State) : Option (RegIdx × Word) :=
  let d := effectiveDestination s.params.opc s.wb.instr
  if s.wb.valid && s.wb.regWrite && d != 0#4 then
    some (d, if s.params.opc.isLoad s.wb.instr.opcode then s.wb.memData else s.wb.aluResult)
  else none

/-- The register file at the end of the cycle (R112, R113). -/
def committedRegs (s : State) : Vector Word 16 :=
  match commitOf s with
  | some (d, v) => writeReg s.x d v
  | none => s.x

/-- The commit event of the cycle, if any (R112, R125): that of the cycle in which the instruction is in `WB`,
3 after the one in which it leaves `ID` (R111), where R156 says 4. DEDUCED (log 20). -/
def commitEvents (s : State) : List Event :=
  match commitOf s with
  | some (d, v) => [.commit s.cycle d v]
  | none => []

/-- Whether a `HALT` commits in this cycle (R112). -/
def haltCommits (s : State) : Bool := s.wb.valid && s.params.opc.isHalt s.wb.instr.opcode

/-- The new `lcr` (R114). -/
def nextLcr (s : State) : RegIdx :=
  if s.mem.valid && s.mem.regWrite then effectiveDestination s.params.opc s.mem.instr else 0#4

/-- The end-of-cycle writes of `WB`, `MEM` and `EX` (R112 to R115, R118), `mem'` and `ex'` being the new
contents of the last two; one more cycle is complete. -/
def shiftStages (mem' ex' : Stage) (s : State) : State :=
  { s with
    x := committedRegs s
    halted := haltCommits s
    wb := s.mem
    lcr := nextLcr s
    mem := mem'
    ex := ex'
    cycle := s.cycle + 1
    events := s.events ++ commitEvents s }

/-- What the fetch stage latches in a fetch cycle (R121): the word at `pc`, or a word out of the image. -/
def fetchedWord (s : State) : IfId :=
  match imemRead s.memory s.pc with
  | .ok w => { valid := true, word := w, ipc := s.pc, oob := false }
  | .error _ => { valid := true, word := 0#32, ipc := s.pc, oob := true }

/-- `Sequential(pc + 1)`, modulo 4096 (R16, R88). -/
def sequentialNext (s : State) : FetchRedirect := .sequential (s.pc + 1#12)

/-- What the decode stage holds in this cycle (R119). -/
inductive Presented where
  | nothing
  | outOfImage (addr : Addr)
  | unknown (opcode : Opcode)
  | instruction (i : Instr)
deriving DecidableEq, Repr

/-- The decode stage's reading of `IFID` (R117, R119). -/
def presented (s : State) : Presented :=
  if s.ifid.valid then
    if s.ifid.oob then .outOfImage s.ifid.ipc
    else
      match decode s.params.opc s.ifid.word with
      | .ok i => .instruction i
      | .error (.unknownOpcode op) => .unknown op
  else .nothing

end Sys2Proof.Machine
end

