-- ==== Sys2Proof/Machine/Flags.lean ====
section
/-! DEFINITION. The hardware has no flags and no condition codes (R27): a conditional branch compares two
register values directly. These are the two comparisons (R85, R106). -/

namespace Sys2Proof.Machine

/-- `BEQ`'s condition: all 32 bits compared (R85). -/
def condEqual (va vb : Word) : Bool := va == vb

/-- `BLT`'s condition: two's complement, strict (R10, R85). PRESUMED (log 11). -/
def condLess (va vb : Word) : Bool := va.slt vb

end Sys2Proof.Machine
end

