-- ==== Sys2Proof/Machine/Forwarding.lean ====
section
/-! DEFINITION. The forwarding unit (40_forwarding.md): the stage hits (R61), the
`pipeline_stage_priority_encoder` (R63), the `forwarding_multiplexer` (R68), the
`load_use_hazard_detector` (R71) and the operation `resolve` (R73). Every function is pure (R76) and takes
the stage registers as they stand, whatever they hold (R28). -/

namespace Sys2Proof.Machine

/-- `hit_ex` and `hit_mem` (R61). -/
def stageHit (o : Opc) (r : RegIdx) (st : Stage) : Bool :=
  st.valid && st.regWrite && effectiveDestination o st.instr == r && effectiveDestination o st.instr != 0#4

/-- `hit_wb` (R61): the destination compared is `lcr`. -/
def wbHit (r : RegIdx) (wb : Stage) (lcr : RegIdx) : Bool :=
  wb.valid && wb.regWrite && lcr == r && lcr != 0#4

/-- `priority_encode` (R63), youngest first. -/
def priorityEncode (hitEx hitMem hitWb : Bool) : Sel :=
  if hitEx then .ex else if hitMem then .mem else if hitWb then .wb else .none

/-- The stage order, youngest first (R65). -/
def stageOrder : List Sel := [.ex, .mem, .wb]

/-- The hit bit of a stage (R61, R62). -/
def Sel.hit (hitEx hitMem hitWb : Bool) : Sel → Bool
  | .ex => hitEx
  | .mem => hitMem
  | .wb => hitWb
  | .none => false

/-- The value of a stage that may supply a load's word: the authoritative field (R20, R68). -/
def stageValue (o : Opc) (st : Stage) : Word :=
  if o.isLoad st.instr.opcode then st.memData else st.aluResult

/-- `forward_mux` (R68): the data when it is valid, nothing when `valid` = 0. -/
def forwardMux (o : Opc) (sel : Sel) (reqIsZero : Bool) (ex mem wb : Stage) : Option Word :=
  if reqIsZero then some 0#32
  else
    match sel with
    | .ex => if o.isLoad ex.instr.opcode then none else some ex.aluResult
    | .mem => some (stageValue o mem)
    | .wb => some (stageValue o wb)
    | .none => none

/-- `load_use` (R71). -/
def loadUse (o : Opc) (sel : Sel) (reqIsZero : Bool) (ex : Stage) : Bool :=
  !reqIsZero && sel == .ex && o.isLoad ex.instr.opcode

/-- `wb_bad` (R73, R74): `WB` retires a register write and `lcr` does not agree with it. -/
def wbBad (o : Opc) (wb : Stage) (lcr : RegIdx) : Bool :=
  wb.valid && wb.regWrite && lcr != effectiveDestination o wb.instr

/-- `resolve` (R73), DOC0's four steps in order. -/
def resolve (o : Opc) (r : RegIdx) (ex mem wb : Stage) (lcr : RegIdx) : Except Fault ForwardResult :=
  if r = 0#4 then .ok (.value 0#32)
  else if stageHit o r ex then
    if o.isLoad ex.instr.opcode then .ok .stallRequired else .ok (.value ex.aluResult)
  else if stageHit o r mem then
    if o.isLoad mem.instr.opcode then .ok (.value mem.memData) else .ok (.value mem.aluResult)
  else if wb.valid && wb.regWrite then
    if lcr ≠ effectiveDestination o wb.instr then
      .error (.hazardPolicyViolation lcr (effectiveDestination o wb.instr))
    else if lcr = r ∧ lcr ≠ 0#4 then
      if o.isLoad wb.instr.opcode then .ok (.value wb.memData) else .ok (.value wb.aluResult)
    else .ok .notFound
  else .ok .notFound

/-- The encoder's output for a request (R61, R63). -/
def selFor (o : Opc) (r : RegIdx) (ex mem wb : Stage) (lcr : RegIdx) : Sel :=
  priorityEncode (stageHit o r ex) (stageHit o r mem) (wbHit r wb lcr)

/-- The outcome of a query in terms of the sub-blocks (R2, R73, last paragraph). -/
def resolveBlocks (o : Opc) (r : RegIdx) (ex mem wb : Stage) (lcr : RegIdx) : Except Fault ForwardResult :=
  let sel := selFor o r ex mem wb lcr
  let data := forwardMux o sel (r == 0#4) ex mem wb
  let stall := loadUse o sel (r == 0#4) ex
  let answer := match data with
    | some v => .ok (.value v)
    | none => .ok .notFound
  if r = 0#4 then answer
  else if stall then .ok .stallRequired
  else
    match sel with
    | .ex | .mem => answer
    | .wb | .none =>
      if wbBad o wb lcr then .error (.hazardPolicyViolation lcr (effectiveDestination o wb.instr))
      else answer

/-- `resolve` on the snapshot of a cycle (R110, R117). -/
def query (s : State) (r : RegIdx) : Except Fault ForwardResult :=
  resolve s.params.opc r s.ex s.mem s.wb s.lcr

end Sys2Proof.Machine
end

