-- ==== Sys2Proof/Machine/Operands.lean ====
section
/-! DEFINITION. The operand forms: a register read through `resolve` (R117) on two ports (R77), the
immediate as a sign-extended number or as an absolute address (R52), the arithmetic `ALU` (R107) and the
link value (R99). -/

namespace Sys2Proof.Machine

/-- `sext_12(v)` (R11). -/
def sext12 (v : BitVec 12) : Word := v.signExtend 32

/-- `zext_12(v)` at the width of a register (R11). -/
def zext12 (v : BitVec 12) : Word := v.zeroExtend 32

/-- The value of a register from its query's answer (R75, R117): the forwarded value, or on `NotFound` the
committed register; nothing on `StallRequired`. -/
def operandValue (s : State) (r : RegIdx) : ForwardResult → Option Word
  | .value v => some v
  | .notFound => some (readReg s.x r)
  | .stallRequired => none

/-- The two ports' combined answer (R77). -/
inductive Operands where
  | fails (f : Fault)
  | stalls
  | ready (va vb : Word)
deriving DecidableEq, Repr

/-- The operand queries of the instruction in decode: port A and port B, an unused port being given index
0 (R77). Port A's failure is reported before port B's, and a failure before a stall (R123, R137). -/
def readOperands (s : State) (ra rb : RegIdx) : Operands :=
  match query s ra, query s rb with
  | .error f, _ => .fails f
  | .ok _, .error f => .fails f
  | .ok qa, .ok qb =>
    match operandValue s ra qa, operandValue s rb qb with
    | some va, some vb => .ready va vb
    | _, _ => .stalls

/-- The default `ALU` (R102, R103, R104): sums and differences modulo 2^32 of the operand and the
sign-extended immediate, no overflow signal (R106). -/
def aluReference (op : AluOp) (v : Word) (imm : Imm) : Word :=
  match op with
  | .addi => v + sext12 imm
  | .subi => v - sext12 imm
  | .lw => v + sext12 imm

/-- The launch's `ALU` (R107). -/
def alu (p : Params) (op : AluOp) (v : Word) (imm : Imm) : Word :=
  match p.alu with
  | .reference => aluReference op v imm
  | .other n => Config.otherAlu n op v imm

/-- The link value of a `JAL` fetched from `a` (R99): `zext_12((a + LINK_OFFSET) mod 4096)`. -/
def linkValue (p : Params) (a : Addr) : Word := zext12 (a + p.linkOffset.value)

end Sys2Proof.Machine
end

