-- ==== Sys2Proof/Machine/Branch.lean ====
section
/-! DEFINITION. The `delay_slot_branch_resolver` (41_branch_resolver.md): the condition (R85), the pure
operation `resolve_branch` (R89) and the fetch state machine it drives (R91 to R94). -/

namespace Sys2Proof.Machine

/-- `taken` (R85). -/
def taken (o : Opc) (f : Fields) (va vb : Word) : Bool :=
  if o.isBeq f.opcode then condEqual va vb
  else if o.isBlt f.opcode then condLess va vb
  else if o.isJal f.opcode then true
  else false

/-- `resolve_branch` (R89): the target is the instruction's own `imm` field as it stands (R87), the
successor `current_pc + 1` modulo 4096 (R88); an unknown opcode is surfaced (R86). -/
def resolveBranch (o : Opc) (f : Fields) (va vb : Word) (currentPc : Addr) : Except Fault FetchRedirect :=
  if o.known f.opcode then
    if taken o f va vb then .ok (.redirected f.imm) else .ok (.sequential (currentPc + 1#12))
  else .error (.encodingError f.opcode)

/-- The fetch address a `FetchRedirect` gives (R92). -/
def FetchRedirect.addr : FetchRedirect → Addr
  | .sequential n => n
  | .redirected t => t

/-- The fetch state a `FetchRedirect` gives (R92, C6 of 90_conflicts.md). -/
def FetchRedirect.state : FetchRedirect → FetchState
  | .sequential _ => .sequential
  | .redirected t => .redirected t

/-- The redirect event of a fetch cycle, if any (R121, R125). -/
def redirectEvents (c : Nat) : FetchRedirect → List Event
  | .sequential _ => []
  | .redirected t => [.redirect c t]

/-- The fetch state machine's transition (R92 to R94): in a fetch cycle `pc` and `fs` take what `fr`
gives, else both hold. -/
def fetchTransition (fetchEn : Bool) (fr : FetchRedirect) (pc : Addr) (fs : FetchState) : Addr × FetchState :=
  if fetchEn then (fr.addr, fr.state) else (pc, fs)

end Sys2Proof.Machine
end

