-- ==== Sys2Proof/Machine/Pipeline.lean ====
section
/-! DEFINITION. One cycle around the instruction in decode (45_reference_pipeline.md): what decode does
with an instruction whose operands are asked for (R116 to R118), and the rest of the cycle, oldest stage
first (R123, R124). Each instruction's meaning is one use of `runInDecode`. -/

namespace Sys2Proof.Machine

/-- What the decode stage does in a cycle. -/
inductive Decoded where
  /-- The failure of the instruction in decode (R119, R123). -/
  | fails (f : Fault)
  /-- The instruction in decode waits (R116). -/
  | stalls
  /-- `EX` takes `ex'`, the fetch stage `fr`; `stop` says that a `HALT` was decoded (R118, R120). -/
  | issues (ex' : Stage) (fr : FetchRedirect) (stop : Bool)
deriving DecidableEq, Repr

/-- The fetch stage's writes in a cycle without a stall (R120, R121): no word is latched once fetch has
stopped, else the word at `pc` is, and `pc` and `fs` follow `fr` (R92). `s` is the snapshot, `t` the state
the older stages have been written into. -/
def fetchStage (s : State) (fr : FetchRedirect) (stop : Bool) (t : State) : State :=
  let stop' := s.fetchStop || stop
  let next := fetchTransition (!stop') fr s.pc s.fs
  { t with
    fetchStop := stop'
    ifid := if stop' then .bubble else fetchedWord s
    pc := next.1
    fs := next.2
    events := t.events ++ if stop' then [] else redirectEvents s.cycle fr }

/-- The whole cycle, given what decode does (R123, R124): the load leaving `EX` is the oldest instruction
that can fail, then the instruction in decode. On a stall `EX` takes a bubble and `IFID`, `pc`, `fs` and
`fetch_stop` hold (R93, R116). -/
def finishCycle (d : Decoded) (s : State) : State :=
  match memInput s with
  | .error f => raise f s
  | .ok mem' =>
    match d with
    | .fails f => raise f s
    | .stalls => shiftStages mem' .bubble s
    | .issues ex' fr stop => fetchStage s fr stop (shiftStages mem' ex' s)

/-- A cycle with no instruction in decode (R118, last sentence): `EX` takes a bubble and
`fr = Sequential(pc + 1)`. At the start of a run this is cycle 0 alone; in cycle 2 the first instruction is in `EX`
and a query can meet it, where R149's last sentence counts three cycles of bubbles. DEDUCED (log 19). -/
def emptyCycle (s : State) : State := finishCycle (.issues .bubble (sequentialNext s) false) s

/-- A cycle in which the word in decode fails (R119). -/
def failingDecode (f : Fault) (s : State) : State := finishCycle (.fails f) s

/-- What decode does with instruction `i` (R117, R118): its operands are asked for on the ports; it waits
or fails with them, or it issues: the stage register `EX` takes the instruction with its write intent and
`result va` as `alu_result`, and the branch resolver gives the next fetch address. -/
def decodeStage (i : Instr) (regWrite : Bool) (result : Word → Word) (stop : Bool) (ra rb : RegIdx)
    (s : State) : Decoded :=
  match readOperands s ra rb with
  | .fails f => .fails f
  | .stalls => .stalls
  | .ready va vb =>
    match resolveBranch s.params.opc (i.fields s.params.opc) va vb s.pc with
    | .error f => .fails f
    | .ok fr =>
      .issues
        { valid := true, instr := i.fields s.params.opc, regWrite := regWrite, aluResult := result va, memData := 0#32 }
        fr stop

/-- The cycle in which `i` stands in decode, with port A given `ra` and port B given `rb`. -/
def runInDecode (i : Instr) (regWrite : Bool) (result : Word → Word) (stop : Bool) (ra rb : RegIdx)
    (s : State) : Host.Outcome State Fault Refusal :=
  .next (finishCycle (decodeStage i regWrite result stop ra rb s) s)

end Sys2Proof.Machine
end

