-- ==== Sys2Proof/Machine/Arithmetic.lean ====
section
/-! DEFINITION. `ADDI` and `SUBI` (R102, R103): the cycle in which the instruction stands in decode. Its
result travels in `alu_result` and is committed to `rd` three cycles later by write-back (R111, R112; log 20). -/

namespace Sys2Proof.Machine

/-- `ADDI Rd,Rs,imm` (R102): reads `rs`, write intent 1 (R55), `alu_result` the sum. -/
def execAddi (rd rs rt : RegIdx) (imm : Imm) (s : State) : Host.Outcome State Fault Refusal :=
  runInDecode (.addi rd rs rt imm) true (fun va => alu s.params .addi va imm) false rs 0#4 s

/-- `SUBI Rd,Rs,imm` (R103): reads `rs`, write intent 1 (R55), `alu_result` the difference. -/
def execSubi (rd rs rt : RegIdx) (imm : Imm) (s : State) : Host.Outcome State Fault Refusal :=
  runInDecode (.subi rd rs rt imm) true (fun va => alu s.params .subi va imm) false rs 0#4 s

end Sys2Proof.Machine
end

