-- ==== Sys2Proof/Machine/Control.lean ====
section
/-! DEFINITION. The control transfers `BEQ`, `BLT`, `JAL` (R96 to R98): the cycle in which the instruction
stands in decode and resolves, while its delay slot is being fetched (R90). -/

namespace Sys2Proof.Machine

/-- `BEQ Rs,Rt,target=imm` (R96): reads `rs` and `rt`, write intent 0, `alu_result` 0 (R118). -/
def execBeq (rd rs rt : RegIdx) (imm : Imm) (s : State) : Host.Outcome State Fault Refusal :=
  runInDecode (.beq rd rs rt imm) false (fun _ => 0#32) false rs rt s

/-- `BLT Rs,Rt,target=imm` (R97): reads `rs` and `rt`, write intent 0, `alu_result` 0 (R118). -/
def execBlt (rd rs rt : RegIdx) (imm : Imm) (s : State) : Host.Outcome State Fault Refusal :=
  runInDecode (.blt rd rs rt imm) false (fun _ => 0#32) false rs rt s

/-- `JAL target=imm` (R98): reads no register, write intent 1, `alu_result` the link value of the address
it was fetched from (R99). -/
def execJal (rd rs rt : RegIdx) (imm : Imm) (s : State) : Host.Outcome State Fault Refusal :=
  runInDecode (.jal rd rs rt imm) true (fun _ => linkValue s.params s.ifid.ipc) false 0#4 0#4 s

end Sys2Proof.Machine
end

