-- ==== Sys2Proof/Machine/Halt.lean ====
section
/-! DEFINITION. `HALT` (R105): the cycle in which it stands in decode. Fetch stops in that cycle (R120);
the run ends when write-back commits it (R112). -/

namespace Sys2Proof.Machine

/-- `HALT` (R105): reads no register, write intent 0, `alu_result` 0 (R118), stops fetch (R120). -/
def execHalt (rd rs rt : RegIdx) (imm : Imm) (s : State) : Host.Outcome State Fault Refusal :=
  runInDecode (.halt rd rs rt imm) false (fun _ => 0#32) true 0#4 0#4 s

end Sys2Proof.Machine
end

