-- ==== Sys2Proof/Machine/Load.lean ====
section
/-! DEFINITION. `LW` (R104): the cycle in which the load stands in decode. Its data address travels in
`alu_result`; the memory stage reads the word as the load leaves `EX` (R115, `memInput`). -/

namespace Sys2Proof.Machine

/-- `LW Rd,imm(Rs)` (R104): reads `rs`, write intent 1 (R55), `alu_result` the word address. -/
def execLw (rd rs rt : RegIdx) (imm : Imm) (s : State) : Host.Outcome State Fault Refusal :=
  runInDecode (.lw rd rs rt imm) true (fun va => alu s.params .lw va imm) false rs 0#4 s

end Sys2Proof.Machine
end

