-- ==== Sys2Proof/Machine/Dispatch.lean ====
section
/-! DEFINITION. The meaning of each instruction: the cycle in which it stands in the decode stage. -/

namespace Sys2Proof.Machine

/-- The cycle of a running core in which `i` is the instruction in decode (R117, R118, R124). DESIGN CHOICE (log 1, 10). -/
def exec (i : Instr) (s : State) : Host.Outcome State Fault Refusal :=
  match i with
  | .addi rd rs rt imm => Sys2Proof.Machine.execAddi rd rs rt imm s
  | .subi rd rs rt imm => Sys2Proof.Machine.execSubi rd rs rt imm s
  | .lw rd rs rt imm => Sys2Proof.Machine.execLw rd rs rt imm s
  | .beq rd rs rt imm => Sys2Proof.Machine.execBeq rd rs rt imm s
  | .blt rd rs rt imm => Sys2Proof.Machine.execBlt rd rs rt imm s
  | .jal rd rs rt imm => Sys2Proof.Machine.execJal rd rs rt imm s
  | .halt rd rs rt imm => Sys2Proof.Machine.execHalt rd rs rt imm s

end Sys2Proof.Machine
end

