-- ==== Sys2Proof/Machine/Step.lean ====
section
/-! DEFINITION. One step of a core: one cycle (R109, R124). -/

namespace Sys2Proof.Machine

/-- One cycle. A failed core takes no further step and its recorded failure is what the driver sees (R11,
R123, R138); a halted core stays as it is (R109); else the cycle is that of what stands in decode.
DESIGN CHOICE (log 1, 2). -/
def step (s : State) : Host.Outcome State Fault Refusal :=
  match s.failed with
  | some f => .fault f
  | none =>
    if s.halted then .next s
    else
      match presented s with
      | .nothing => .next (emptyCycle s)
      | .outOfImage a => .next (failingDecode (.fetchOutOfImage a) s)
      | .unknown op => .next (failingDecode (.encodingError op) s)
      | .instruction i => exec i s

/-- The word loaded at `pc` and fetched from there: it stands in the image at `pc` and in `IFID`, and `pc`
has gone on to the next address, as after the fetch cycle of R121. The next step runs it. -/
def State.withFetchWord (s : State) (nbits w : Nat) : State :=
  { s with
    memory := imemPlace s.memory s.pc (tableWord nbits w)
    ifid := { valid := true, word := tableWord nbits w, ipc := s.pc, oob := false }
    pc := s.pc + 1#12
    fs := .sequential }

end Sys2Proof.Machine
end

