-- ==== Sys2Proof/Machine/Advance.lean ====
section
/-! DEFINITION. `advance` (R124) as the spec writes it: one function over the raw fields of the word in
decode, from a state to a state (R109). `step` reaches the same state through the instructions' meanings;
that the two agree is a statement of its own. -/

namespace Sys2Proof.Machine

/-- What the ID section of R124 leaves for the rest of the cycle. -/
structure IdSection where
  stall      : Bool
  fr         : FetchRedirect
  ex'        : Stage
  fetchStop' : Bool
deriving DecidableEq, Repr

/-- `EX.alu_result` by opcode (R118). -/
def issueResult (s : State) (i : Fields) (va : Word) : Word :=
  let o := s.params.opc
  if i.opcode = o.addi then alu s.params .addi va i.imm
  else if i.opcode = o.subi then alu s.params .subi va i.imm
  else if i.opcode = o.lw then alu s.params .lw va i.imm
  else if i.opcode = o.jal then linkValue s.params s.ifid.ipc
  else 0#32

/-- The operand a query's answer gives when it is no stall: `Value(v) ? v : S.x[r]` (R124). -/
def forwardedOr (s : State) (r : RegIdx) : ForwardResult → Word
  | .value v => v
  | _ => readReg s.x r

/-- The ID section of R124, for a valid `IFID` whose word has the known opcode of `i`. -/
def idIssue (s : State) (i : Fields) : Except Fault IdSection :=
  let o := s.params.opc
  let qa := if o.readsRs i.opcode then resolve o i.rs s.ex s.mem s.wb s.lcr else .ok (.value 0#32)
  let qb := if o.readsRt i.opcode then resolve o i.rt s.ex s.mem s.wb s.lcr else .ok (.value 0#32)
  match qa with
  | .error f => .error f
  | .ok a =>
    match qb with
    | .error f => .error f
    | .ok b =>
      if a = .stallRequired ∨ b = .stallRequired then
        .ok { stall := true, fr := .sequential (s.pc + 1#12), ex' := .bubble, fetchStop' := s.fetchStop }
      else
        match resolveBranch o i (forwardedOr s i.rs a) (forwardedOr s i.rt b) s.pc with
        | .error f => .error f
        | .ok fr =>
          .ok
            { stall := false
              fr := fr
              ex' :=
                { valid := true, instr := i, regWrite := o.writesReg i.opcode
                  aluResult := issueResult s i (forwardedOr s i.rs a), memData := 0#32 }
              fetchStop' := s.fetchStop || o.isHalt i.opcode }

/-- The ID section of R124. -/
def idSection (s : State) : Except Fault IdSection :=
  if s.ifid.valid then
    if s.ifid.oob then .error (.fetchOutOfImage s.ifid.ipc)
    else if s.params.opc.known (decodeFields s.ifid.word).opcode then idIssue s (decodeFields s.ifid.word)
    else .error (.encodingError (decodeFields s.ifid.word).opcode)
  else .ok { stall := false, fr := .sequential (s.pc + 1#12), ex' := .bubble, fetchStop' := s.fetchStop }

/-- The WB and IF sections of R124, once nothing has failed. -/
def advanceLive (s : State) (mem' : Stage) (d : IdSection) : State :=
  let o := s.params.opc
  let w := effectiveDestination o s.wb.instr
  let v := if o.isLoad s.wb.instr.opcode then s.wb.memData else s.wb.aluResult
  let commits := s.wb.valid && s.wb.regWrite && w != 0#4
  let fetches := !d.stall && !d.fetchStop'
  { s with
    x := if commits then writeReg s.x w v else s.x
    halted := s.wb.valid && o.isHalt s.wb.instr.opcode
    wb := s.mem
    lcr := if s.mem.valid && s.mem.regWrite then effectiveDestination o s.mem.instr else 0#4
    mem := mem'
    ex := d.ex'
    fetchStop := d.fetchStop'
    ifid :=
      if d.stall then s.ifid
      else if d.fetchStop' then .bubble
      else if s.pc.toNat < s.memory.plen then
        { valid := true, word := s.memory.imem.getD s.pc.toNat 0#32, ipc := s.pc, oob := false }
      else { valid := true, word := 0#32, ipc := s.pc, oob := true }
    pc := if fetches then (match d.fr with | .redirected t => t | .sequential n => n) else s.pc
    fs := if fetches then (match d.fr with | .redirected t => .redirected t | .sequential _ => .sequential) else s.fs
    cycle := s.cycle + 1
    events :=
      s.events ++ (if commits then [.commit s.cycle w v] else [])
        ++ (if fetches then (match d.fr with | .redirected t => [.redirect s.cycle t] | .sequential _ => []) else []) }

/-- `advance` (R124): total and deterministic, the identity on a halted or failed core (R109). -/
def advance (s : State) : State :=
  if s.halted = true ∨ s.failed ≠ none then s
  else
    let load := s.ex.valid && s.params.opc.isLoad s.ex.instr.opcode
    if load = true ∧ s.memory.dlen ≤ s.ex.aluResult.toNat then
      { s with failed := some (.dataAddressOutOfImage s.ex.aluResult) }
    else
      match idSection s with
      | .error f => { s with failed := some f }
      | .ok d =>
        advanceLive s
          (if load then { s.ex with memData := s.memory.dmem.getD s.ex.aluResult.toNat 0#32 } else s.ex) d

/-- `n` calls of `advance`. -/
def cycles : Nat → State → State
  | 0, s => s
  | n + 1, s => cycles n (advance s)

end Sys2Proof.Machine
end

