-- ==== Sys2Proof/Machine/Multicore.lean ====
section
/-! DEFINITION. More than one core (R25, R128, R146): the machine is a list of cores, `NCORES` its length (at least
1 in a launch the model accepts, R8),
and a schedule says which core makes its next cycle. No core's cycle reads or writes another's state. -/

namespace Sys2Proof.Machine

/-- The cores at launch (R128, R146): every core at reset with its own instruction image and model
arguments, all with the same constant data image (R46). -/
def launchCores (m : MachineLaunch) : List State := m.launches.map State.launch

/-- Core `k` makes one cycle. -/
def advanceCore (k : Nat) (cores : List State) : List State := cores.modify k advance

/-- The cores after a schedule: any interleaving of the cores' cycles (R128). -/
def runCores : List Nat → List State → List State
  | [], cores => cores
  | k :: ks, cores => runCores ks (advanceCore k cores)

/-- The whole machine's run is over when every core's run is over (R122, R128). -/
def coresOver (cores : List State) : Bool := cores.all fun s => s.halted || s.failed.isSome

end Sys2Proof.Machine
end

