-- ==== Sys2Proof/Machine/Ports.lean ====
section
/-! DEFINITION. The port-level views of the forwarding unit (R78) and of the branch resolver (R100), with
the spec's codes. Informative in the spec: only the abstract results are normative. An output that has no
meaning in a case is absent in it (V5 of 93_implementation_defined.md). -/

namespace Sys2Proof.Machine

/-- The outputs of one forwarding instance (R78). -/
structure ForwardPorts where
  fwdKind  : BitVec 2
  fwdValue : Option Word
  fwdSel   : BitVec 2
  stall    : Bool
  failCode : BitVec 2
deriving DecidableEq, Repr

/-- `fwd_sel` (R78): 0 `NONE`, 1 `EX`, 2 `MEM`, 3 `WB`. -/
def Sel.code : Sel → BitVec 2
  | .none => 0
  | .ex => 1
  | .mem => 2
  | .wb => 3

/-- One forwarding instance as ports (R78). -/
def forwardPorts (o : Opc) (r : RegIdx) (ex mem wb : Stage) (lcr : RegIdx) : ForwardPorts :=
  let sel := (selFor o r ex mem wb lcr).code
  match resolve o r ex mem wb lcr with
  | .ok .notFound => { fwdKind := 0, fwdValue := none, fwdSel := sel, stall := false, failCode := 0 }
  | .ok (.value v) => { fwdKind := 1, fwdValue := some v, fwdSel := sel, stall := false, failCode := 0 }
  | .ok .stallRequired => { fwdKind := 2, fwdValue := none, fwdSel := sel, stall := true, failCode := 0 }
  | .error f => { fwdKind := 3, fwdValue := none, fwdSel := sel, stall := false, failCode := BitVec.ofNat 2 f.code }

/-- The outputs of the branch resolver (R100). -/
structure ResolverPorts where
  redirect      : Bool
  nextFetchAddr : Option Addr
  fsMode        : Bool
  fsTarget      : Option Addr
  failCode      : BitVec 2
deriving DecidableEq, Repr

/-- The branch resolver as ports (R100): `fs` is the registered fetch state; when no instruction resolves
the next fetch address is `current_pc + 1` (R92). -/
def resolverPorts (o : Opc) (resValid : Bool) (f : Fields) (va vb : Word) (currentPc : Addr)
    (fs : FetchState) : ResolverPorts :=
  let mode := match fs with | .sequential => false | .redirected _ => true
  let target := match fs with | .sequential => none | .redirected t => some t
  if resValid then
    match resolveBranch o f va vb currentPc with
    | .ok (.redirected t) => { redirect := true, nextFetchAddr := some t, fsMode := mode, fsTarget := target, failCode := 0 }
    | .ok (.sequential n) => { redirect := false, nextFetchAddr := some n, fsMode := mode, fsTarget := target, failCode := 0 }
    | .error e => { redirect := false, nextFetchAddr := none, fsMode := mode, fsTarget := target, failCode := BitVec.ofNat 2 e.code }
  else { redirect := false, nextFetchAddr := some (currentPc + 1#12), fsMode := mode, fsTarget := target, failCode := 0 }

end Sys2Proof.Machine
end

