-- ==== Sys2Proof/Machine/View.lean ====
section
/-! DEFINITION. The instruction-level view (R126): the same machine without the pipeline, on the register
file and the pair of addresses `(cur, nxt)`, the instruction to execute and the one after it. It keeps the
list of its register writes that are not discarded, to be held against the commit events (R127). -/

namespace Sys2Proof.Machine

/-- The view's state (R126). -/
structure View where
  x      : Vector Word 16
  cur    : Addr
  nxt    : Addr
  writes : List (RegIdx × Word)
deriving DecidableEq, Repr

/-- `x` all 0, `(cur, nxt) = (0, 1)` (R126). -/
def View.start : View := { x := Vector.replicate 16 0#32, cur := 0#12, nxt := 1#12, writes := [] }

/-- How a run of the view stands: it goes on, it has stopped at a `HALT`, or it has raised. -/
inductive ViewOutcome where
  | next (v : View)
  | stopped (v : View)
  | raised (f : Fault) (v : View)
deriving DecidableEq, Repr

/-- The write `x[d] <- v`, discarded for register 0 (R126), and the step to the next pair of addresses. -/
def View.write (v : View) (d : RegIdx) (w : Word) (nxt' : Addr) : View :=
  { x := writeReg v.x d w
    cur := v.nxt
    nxt := nxt'
    writes := if d = 0#4 then v.writes else v.writes ++ [(d, w)] }

/-- A step without a register write. -/
def View.goto (v : View) (nxt' : Addr) : View := { v with cur := v.nxt, nxt := nxt' }

/-- One instruction (R126, the `case`). -/
def viewExec (l : Launch) (i : Instr) (v : View) : ViewOutcome :=
  match i with
  | .addi rd rs _ imm => .next (v.write rd (alu l.params .addi (readReg v.x rs) imm) (v.nxt + 1#12))
  | .subi rd rs _ imm => .next (v.write rd (alu l.params .subi (readReg v.x rs) imm) (v.nxt + 1#12))
  | .lw rd rs _ imm =>
    match dmemRead l.memory (alu l.params .lw (readReg v.x rs) imm) with
    | .ok w => .next (v.write rd w (v.nxt + 1#12))
    | .error f => .raised f v
  | .beq _ rs rt imm =>
    .next (v.goto (if condEqual (readReg v.x rs) (readReg v.x rt) then imm else v.nxt + 1#12))
  | .blt _ rs rt imm =>
    .next (v.goto (if condLess (readReg v.x rs) (readReg v.x rt) then imm else v.nxt + 1#12))
  | .jal _ _ _ imm => .next (v.write linkReg (linkValue l.params v.cur) imm)
  | .halt _ _ _ _ => .stopped v

/-- One step of the view (R126). -/
def viewStep (l : Launch) (v : View) : ViewOutcome :=
  match imemRead l.memory v.cur with
  | .error f => .raised f v
  | .ok w =>
    match decode l.params.opc w with
    | .error (.unknownOpcode op) => .raised (.encodingError op) v
    | .ok i => viewExec l i v

/-- `n` steps of the view, ending at a `HALT` or a failure. -/
def viewRun (l : Launch) : Nat → View → ViewOutcome
  | 0, v => .next v
  | n + 1, v =>
    match viewStep l v with
    | .next v' => viewRun l n v'
    | .stopped v' => .stopped v'
    | .raised f v' => .raised f v'

/-- The register writes of a list of events, in order (R125, R127). -/
def commitsOf : List Event → List (RegIdx × Word)
  | [] => []
  | .commit _ d v :: es => (d, v) :: commitsOf es
  | .redirect _ _ :: es => commitsOf es

end Sys2Proof.Machine
end

