-- ==== Sys2Proof/Safety.lean ====
section
/-! DEFINITION. What counts as a safe run, and the words the statements use: the ends of a run (R122,
R138), the premises on the inputs of `CORE` (R23, R28), when the instruction in decode has its operands,
waits or issues (R116, R117), and the invariant of the states `ENV` reaches. -/

namespace Sys2Proof.Machine

/-- `k` cycles, ending at the first fault: `Host.Core.run` on this machine. -/
def run : Nat → State → Host.Outcome State Fault Refusal
  | 0, s => .next s
  | k + 1, s =>
    match step s with
    | .next t => run k t
    | .fault f => .fault f
    | .refused r => .refused r

namespace State

/-- The core has neither halted nor failed: its next cycle is a cycle (R109). -/
abbrev Live (s : State) : Prop := s.failed = none ∧ s.halted = false

/-- The run went wrong (R138): no claim about a normal end holds of it. -/
abbrev GoneWrong (s : State) : Prop := s.failed ≠ none

/-- The run ended normally (R122): a `HALT` was in `WB` in the last cycle. -/
abbrev NormalEnd (s : State) : Prop := s.halted = true ∧ s.failed = none

/-- `P_LCR` (R23). -/
abbrev PLcr (s : State) : Prop :=
  s.wb.valid = true → s.wb.regWrite = true → s.lcr = effectiveDestination s.params.opc s.wb.instr

/-- `P_OPC` (R28): every valid stage register holds an opcode of the map. -/
abbrev POpc (s : State) : Prop :=
  (s.ex.valid = true → s.params.opc.known s.ex.instr.opcode = true) ∧
  (s.mem.valid = true → s.params.opc.known s.mem.instr.opcode = true) ∧
  (s.wb.valid = true → s.params.opc.known s.wb.instr.opcode = true)

/-- `EX` holds a valid load (R115). -/
abbrev LoadInEx (s : State) : Prop := s.ex.valid = true ∧ s.params.opc.isLoad s.ex.instr.opcode = true

/-- No load with an address outside the data image leaves `EX` in this cycle (R115, R135). -/
abbrev MemoryStageReady (s : State) : Prop := s.LoadInEx → s.ex.aluResult.toNat < s.memory.dlen

/-- A valid `HALT` is in this stage register. -/
abbrev HoldsHalt (s : State) (st : Stage) : Prop :=
  st.valid = true ∧ s.params.opc.isHalt st.instr.opcode = true

/-- The value the instruction in decode gets for register `r` in this cycle (R117): none when its query
stalls or fails. -/
def operandNow (s : State) (r : RegIdx) : Option Word :=
  match query s r with
  | .ok q => operandValue s r q
  | .error _ => none

/-- The instruction in decode waits for an operand in this cycle (R116). -/
abbrev Waits (s : State) : Prop :=
  ∃ i, presented s = .instruction i ∧ readOperands s i.portA i.portB = .stalls

/-- The `FetchRedirect` of this cycle (R92): that of the instruction in decode when it resolves, else
`Sequential(pc + 1)`. -/
def redirectNow (s : State) : FetchRedirect :=
  match presented s with
  | .instruction i =>
    match readOperands s i.portA i.portB with
    | .ready va vb =>
      match resolveBranch s.params.opc (i.fields s.params.opc) va vb s.pc with
      | .ok fr => fr
      | .error _ => sequentialNext s
    | _ => sequentialNext s
  | _ => sequentialNext s

/-- A `HALT` is in decode (R120). -/
abbrev HaltInDecode (s : State) : Prop := ∃ rd rs rt imm, presented s = .instruction (.halt rd rs rt imm)

/-- `waits` as a truth value, to be counted (R156). -/
def waitsNow (s : State) : Bool :=
  match presented s with
  | .instruction i => readOperands s i.portA i.portB == .stalls
  | _ => false

/-- The instruction in decode issues in this cycle (R118), as a truth value. -/
def issuesNow (s : State) : Bool :=
  match presented s with
  | .instruction i =>
    match readOperands s i.portA i.portB with
    | .ready _ _ => true
    | _ => false
  | _ => false

/-- How many of the next `n` cycles have the property. -/
def countCycles (p : State → Bool) : Nat → State → Nat
  | 0, _ => 0
  | n + 1, s => (if p s then 1 else 0) + countCycles p n (advance s)

/-- What the fetch stage latches in a fetch cycle, in the spec's words (R121). -/
def wordAtPc (s : State) : IfId :=
  if s.pc.toNat < s.memory.plen then
    { valid := true, word := s.memory.imem.getD s.pc.toNat 0#32, ipc := s.pc, oob := false }
  else { valid := true, word := 0#32, ipc := s.pc, oob := true }

/-- The fetch side of a cycle in which the instruction in decode issues (R92, R94, R120, R121): with
`stop`, or once fetch has stopped, nothing is latched and `pc` and `fs` hold; else the word at `pc` is
latched, the delay slot of a control transfer, and `pc` and `fs` take what the instruction resolved to. -/
def FetchSide (s t : State) (fr : FetchRedirect) (stop : Bool) : Prop :=
  if s.fetchStop = true ∨ stop = true then
    t.fetchStop = true ∧ t.ifid = .bubble ∧ t.pc = s.pc ∧ t.fs = s.fs
  else
    t.fetchStop = false ∧ t.ifid = s.wordAtPc ∧
      (match fr with
        | .redirected a => t.pc = a ∧ t.fs = .redirected a
        | .sequential n => t.pc = n ∧ t.fs = .sequential)

/-- The end of an instruction's way (R111, R112): `t` being the state it issued into, in the third cycle
after it the instruction is in `WB`, if no cycle on the way fails or ends the run; `u` and `w` are the
states before and after that cycle. -/
def RetiresInto (t u w : State) : Prop :=
  run 2 t = .next u ∧ u.halted = false ∧ step u = .next w ∧ w.failed = none

/-- The instruction that issued into `t` commits the value `v` to register `d` (R112) and changes no other
register in that cycle; a write to register 0 is discarded (R13) and is no commit event (R125). -/
def CommitsTo (t : State) (d : RegIdx) (v : Word) : Prop :=
  ∀ u w, RetiresInto t u w →
    readReg w.x d = (if d = 0#4 then 0#32 else v) ∧
    (∀ r, r ≠ d → readReg w.x r = readReg u.x r) ∧
    commitsOf w.events = commitsOf u.events ++ (if d = 0#4 then [] else [(d, v)])

/-- The instruction that issued into `t` writes no register. -/
def CommitsNothing (t : State) : Prop :=
  ∀ u w, RetiresInto t u w → w.x = u.x ∧ commitsOf w.events = commitsOf u.events

/-- The value of register `d` that the contents `st` of a stage register forward from `MEM` and from `WB`,
when no younger stage hits: a load's, once its word is read (R71, R104). -/
def ForwardedOnceLoaded (o : Opc) (st : Stage) (d : RegIdx) (v : Word) : Prop :=
  ∀ (ex mem wb : Stage) (lcr : RegIdx), stageHit o d ex = false →
    resolve o d ex st wb lcr = .ok (.value v) ∧
    (stageHit o d mem = false → resolve o d ex mem st d = .ok (.value v))

/-- The value of register `d` that the contents `st` of a stage register forward from each of the three
stages, when no younger stage hits (R20, R102). -/
def ForwardedFromEveryStage (o : Opc) (st : Stage) (d : RegIdx) (v : Word) : Prop :=
  (∀ (mem wb : Stage) (lcr : RegIdx), resolve o d st mem wb lcr = .ok (.value v)) ∧
  ForwardedOnceLoaded o st d v

/-- Two outcomes of a cycle that agree but for the fields of the instruction now in `EX`, and there in what
the rules read: the opcode and, with write intent, the destination (R53). -/
def SameButIgnored (a b : Host.Outcome State Fault Refusal) : Prop :=
  ∃ t u, a = .next t ∧ b = .next u ∧
    ({ t with ex := { t.ex with instr := u.ex.instr } } : State) = u ∧
    t.ex.instr.opcode = u.ex.instr.opcode ∧
    (t.ex.regWrite = true →
      effectiveDestination t.params.opc t.ex.instr = effectiveDestination u.params.opc u.ex.instr)

/-- What holds of every state a core reaches from a launch. -/
structure Inv (s : State) : Prop where
  /-- The launch was well formed (V18 of 93_implementation_defined.md) and nothing changed it (R33). -/
  launchWf : s.memory.wf = true ∧ s.params.wf = true
  /-- Register 0 holds 0 (R13). -/
  zero : s.x[0] = 0#32
  /-- `P_LCR` (R23, R114). -/
  lcr : s.PLcr
  /-- `lcr` is 0 when `WB` retires no register write (R22). -/
  lcrIdle : ¬ (s.wb.valid = true ∧ s.wb.regWrite = true) → s.lcr = 0#4
  /-- `P_OPC` (R28). -/
  opc : s.POpc
  /-- The write intent of a stage is the one R55 gives its opcode. -/
  intent : ∀ st, st ∈ [s.ex, s.mem, s.wb] → st.valid = true →
    st.regWrite = s.params.opc.writesReg st.instr.opcode
  /-- A stage without an instruction holds `ENV`'s bubble (R29, R116). -/
  bubbles : ∀ st, st ∈ [s.ex, s.mem, s.wb] → st.valid = false → st = .bubble
  /-- `fs = Redirected(t)` implies `pc = t` (R24). -/
  redirected : ∀ t, s.fs = .redirected t → s.pc = t
  /-- While a redirect is being fetched, `EX` holds the control transfer that caused it (R93). -/
  redirectCause : (∃ t, s.fs = .redirected t) → s.ifid.valid = true →
    s.ex.valid = true ∧ s.params.opc.isControl s.ex.instr.opcode = true
  /-- `IFID` holds the image word of its address, or is marked out of the image (R121). -/
  latched : s.ifid.valid = true →
    if s.ifid.ipc.toNat < s.memory.plen then
      s.ifid.oob = false ∧ s.memory.imem[s.ifid.ipc.toNat]? = some s.ifid.word
    else s.ifid.oob = true
  /-- Once fetch has stopped nothing is in decode and a `HALT` is on its way, or has committed (R120). -/
  stopped : s.fetchStop = true →
    s.ifid.valid = false ∧ (s.HoldsHalt s.ex ∨ s.HoldsHalt s.mem ∨ s.HoldsHalt s.wb ∨ s.halted = true)
  /-- A `HALT` in the pipeline has stopped fetch (R120). -/
  halting : s.HoldsHalt s.ex ∨ s.HoldsHalt s.mem ∨ s.HoldsHalt s.wb ∨ s.halted = true → s.fetchStop = true
  /-- `ENV` never causes `HazardPolicyViolation` (R114, R133). -/
  noViolation : ∀ a b, s.failed ≠ some (.hazardPolicyViolation a b)

end State

/-- The agreement of the two views of a launch (R127): `ENV` from the launch and the instruction-level view end
normally together, with the same registers and the same register writes; they fail together, with the same
failure and argument; and they run for ever together. -/
structure AgreesWithView (l : Launch) : Prop where
  halts : ∀ (x : Vector Word 16) (writes : List (RegIdx × Word)),
    (∃ n s, run n (State.launch l) = .next s ∧ s.NormalEnd ∧ s.x = x ∧ commitsOf s.events = writes) ↔
    (∃ m v, viewRun l m View.start = .stopped v ∧ v.x = x ∧ v.writes = writes)
  fails : ∀ f : Fault,
    (∃ n, run n (State.launch l) = .fault f) ↔ (∃ m v, viewRun l m View.start = .raised f v)
  runsForEver :
    (∀ n, ∃ s, run n (State.launch l) = .next s ∧ s.Live) ↔ (∀ m, ∃ v, viewRun l m View.start = .next v)

end Sys2Proof.Machine
end

