-- ==== Sys2Proof/Certificates/Slice0/Obligations.lean ====
section
/-! DEFINITION. The statements for the provers. Each docstring names the rules of spec/ it rests on. -/

open Sys2Proof Sys2Proof.Machine Sys2Proof.Machine.State

/-! ### Encoding -/

/-- R48, R49: `decode` reads the five fields at their bits and loses none. -/
def Obligations.DecodeLosesNoBit : Prop :=
  (∀ w : Word, decodeFields w =
    { opcode := w.extractLsb 31 24, rd := w.extractLsb 23 20, rs := w.extractLsb 19 16,
      rt := w.extractLsb 15 12, imm := w.extractLsb 11 0 }) ∧
  (∀ w : Word, (decodeFields w).opcode ++ (decodeFields w).rd ++ (decodeFields w).rs ++
    (decodeFields w).rt ++ (decodeFields w).imm = w) ∧
  (∀ f : Fields, decodeFields (f.opcode ++ f.rd ++ f.rs ++ f.rt ++ f.imm) = f)

/-- R49, R50, R53, R54: under an injective opcode map decoding and encoding are inverse to each other, for
every instruction with every value of every field, the ignored ones too. -/
def Obligations.DecodeAndEncodeAgree : Prop :=
  ∀ o : Opc, o.wf = true →
    (∀ i, decode o (encode o i) = .ok i) ∧ (∀ w i, decode o w = .ok i → encode o i = w)

/-- R54: a word with an opcode outside the map is no instruction. The decoder rejects exactly these words,
by name; `resolve_branch` raises `EncodingError` for them; a core that decodes one records it and makes no
other change. With the default map they are the opcodes 0x07 to 0xFF. -/
def Obligations.UnknownOpcodeRaisesEncodingError : Prop :=
  (∀ (o : Opc) (w : Word), (∃ i, decode o w = .ok i) ↔ o.known (decodeFields w).opcode = true) ∧
  (∀ (o : Opc) (w : Word), o.known (decodeFields w).opcode = false →
    decode o w = .error (.unknownOpcode (decodeFields w).opcode)) ∧
  (∀ (o : Opc) (f : Fields) (va vb : Word) (pc : Addr), o.known f.opcode = false →
    resolveBranch o f va vb pc = .error (.encodingError f.opcode)) ∧
  (∀ s : State, s.Live → s.MemoryStageReady → s.ifid.valid = true → s.ifid.oob = false →
    s.params.opc.known (decodeFields s.ifid.word).opcode = false →
    step s = .next { s with failed := some (.encodingError (decodeFields s.ifid.word).opcode) }) ∧
  (∀ op : Opcode, Opc.reference.known op = false ↔ 0x07 ≤ op.toNat)

/-- R57, R59: the worked encodings under the default map, written by the assembler and read by the decoder. -/
def Obligations.WorkedEncodings : Prop :=
  (∀ p ∈ [(Asm.addi 3#4 3#4 2, 0x00330002#32), (Asm.subi 2#4 2#4 1, 0x01220001#32),
      (Asm.subi 1#4 0#4 1, 0x01100001#32), (Asm.addi 1#4 1#4 (-1), 0x00110FFF#32),
      (Asm.lw 1#4 1 0#4, 0x02100001#32), (Asm.beq 2#4 0#4 0#12, 0x03020000#32),
      (Asm.blt 2#4 3#4 5#12, 0x04023005#32), (Asm.jal 4#12, 0x05000004#32),
      (.jal 7#4 0#4 0#4 4#12, 0x05700004#32), (Asm.halt, 0x06000000#32)],
    encode .reference p.1 = p.2 ∧ decode .reference p.2 = .ok p.1) ∧
  decode .reference 0x07000000#32 = .error (.unknownOpcode 0x07#8)

/-- R53: a field the instruction does not use has no effect. The cycle in which the instruction stands in
decode ends in the same state whatever the field holds, but for the field itself, which travels on. -/
def Obligations.UnusedFieldsHaveNoEffect : Prop :=
  ∀ (s : State) (rd rs rt rd' rs' rt' : RegIdx) (imm imm' : Imm),
    SameButIgnored (exec (.addi rd rs rt imm) s) (exec (.addi rd rs rt' imm) s) ∧
    SameButIgnored (exec (.subi rd rs rt imm) s) (exec (.subi rd rs rt' imm) s) ∧
    SameButIgnored (exec (.lw rd rs rt imm) s) (exec (.lw rd rs rt' imm) s) ∧
    SameButIgnored (exec (.beq rd rs rt imm) s) (exec (.beq rd' rs rt imm) s) ∧
    SameButIgnored (exec (.blt rd rs rt imm) s) (exec (.blt rd' rs rt imm) s) ∧
    SameButIgnored (exec (.jal rd rs rt imm) s) (exec (.jal rd' rs' rt' imm) s) ∧
    (s.params.opc.wf = true →
      SameButIgnored (exec (.halt rd rs rt imm) s) (exec (.halt rd' rs' rt' imm') s))

/-! ### The forwarding unit -/

/-- R60: the effective destination is 15 for a jump-and-link whatever its `rd` field holds, and the `rd`
field for every other instruction and for an opcode outside the map. -/
def Obligations.EffectiveDestinationOverridesForJal : Prop :=
  ∀ o : Opc, o.wf = true →
    (∀ rd rs rt imm, effectiveDestination o ((Instr.jal rd rs rt imm).fields o) = 15#4) ∧
    (∀ i : Instr, (∀ rd rs rt imm, i ≠ .jal rd rs rt imm) →
      effectiveDestination o (i.fields o) = (i.fields o).rd) ∧
    (∀ f : Fields, o.known f.opcode = false → effectiveDestination o f = f.rd)

/-- R63, R65: the encoder selects the first hit in the fixed order `EX`, `MEM`, `WB`. -/
def Obligations.EncoderSelectsYoungestHit : Prop :=
  ∀ hitEx hitMem hitWb : Bool,
    priorityEncode hitEx hitMem hitWb = (stageOrder.find? (Sel.hit hitEx hitMem hitWb)).getD .none

/-- R69: a request for register 0 is answered `Value(0)` whatever the pipeline holds. -/
def Obligations.RegisterZeroResolvesToZero : Prop :=
  ∀ (o : Opc) (ex mem wb : Stage) (lcr : RegIdx), resolve o 0#4 ex mem wb lcr = .ok (.value 0#32)

/-- R71, R80: a query stalls exactly when `EX` holds a valid load with write intent for the requested,
non-zero register, whatever `MEM`, `WB` and `lcr` hold; so says the detector too. A load in `MEM` that `EX`
does not supersede gives its loaded word. -/
def Obligations.OnlyALoadInExecuteStalls : Prop :=
  ∀ (o : Opc), o.wf = true → ∀ (r : RegIdx) (ex mem wb : Stage) (lcr : RegIdx),
    (resolve o r ex mem wb lcr = .ok .stallRequired ↔
      r ≠ 0#4 ∧ ex.valid = true ∧ ex.regWrite = true ∧ ex.instr.rd = r ∧ o.isLoad ex.instr.opcode = true) ∧
    (loadUse o (selFor o r ex mem wb lcr) (r == 0#4) ex = true ↔
      resolve o r ex mem wb lcr = .ok .stallRequired) ∧
    (r ≠ 0#4 → stageHit o r ex = false → mem.valid = true → mem.regWrite = true → mem.instr.rd = r →
      o.isLoad mem.instr.opcode = true → resolve o r ex mem wb lcr = .ok (.value mem.memData))

/-- R79: the priority law. A non-load writer of the requested register, the youngest one, is answered with
its `alu_result` and no older stage is consulted; in `WB` this needs `P_LCR`, without which the answer is
the failure of R74. -/
def Obligations.PriorityLaw : Prop :=
  ∀ (o : Opc) (r : RegIdx) (ex mem wb : Stage) (lcr : RegIdx), r ≠ 0#4 →
    (stageHit o r ex = true → o.isLoad ex.instr.opcode = false →
      resolve o r ex mem wb lcr = .ok (.value ex.aluResult)) ∧
    (stageHit o r ex = false → stageHit o r mem = true → o.isLoad mem.instr.opcode = false →
      resolve o r ex mem wb lcr = .ok (.value mem.aluResult)) ∧
    (stageHit o r ex = false → stageHit o r mem = false → stageHit o r wb = true →
      o.isLoad wb.instr.opcode = false →
      resolve o r ex mem wb lcr =
        if lcr = r then .ok (.value wb.aluResult) else .error (.hazardPolicyViolation lcr r))

/-- R74: a query fails exactly when it reaches step 3 and finds `WB` valid with write intent and `lcr`
different from the destination of its instruction, whichever register was asked; the failure carries both
indices, and it is terminal for the core. That later runs answer it as their fault is the model's choice
(DESIGN CHOICE, log 2). -/
def Obligations.WritebackMismatchIsReported : Prop :=
  (∀ (o : Opc) (r : RegIdx) (ex mem wb : Stage) (lcr : RegIdx) (f : Fault),
    resolve o r ex mem wb lcr = .error f ↔
      r ≠ 0#4 ∧ stageHit o r ex = false ∧ stageHit o r mem = false ∧ wb.valid = true ∧ wb.regWrite = true ∧
      lcr ≠ effectiveDestination o wb.instr ∧
      f = .hazardPolicyViolation lcr (effectiveDestination o wb.instr)) ∧
  (∀ (s : State) (i : Instr) (f : Fault), s.Live → s.MemoryStageReady → presented s = .instruction i →
    query s i.portA = .error f →
    step s = .next { s with failed := some f } ∧ ∀ n, run (n + 1) { s with failed := some f } = .fault f)

/-- R75: `NotFound` means that no in-flight instruction will write the register; the operand is then the
committed one. It is never the answer for register 0, nor when `EX` hits on a load. -/
def Obligations.NotFoundMeansNoWriterInFlight : Prop :=
  (∀ (o : Opc) (r : RegIdx) (ex mem wb : Stage) (lcr : RegIdx),
    resolve o r ex mem wb lcr = .ok .notFound →
    r ≠ 0#4 ∧ ∀ st ∈ [ex, mem, wb], st.valid = true → st.regWrite = true →
      effectiveDestination o st.instr ≠ r) ∧
  (∀ (o : Opc) (r : RegIdx) (ex mem wb : Stage) (lcr : RegIdx), r ≠ 0#4 →
    (wb.valid = true → wb.regWrite = true → lcr = effectiveDestination o wb.instr) →
    (∀ st ∈ [ex, mem, wb], st.valid = true → st.regWrite = true → effectiveDestination o st.instr ≠ r) →
    resolve o r ex mem wb lcr = .ok .notFound) ∧
  (∀ (s : State) (r : RegIdx), query s r = .ok .notFound → s.operandNow r = some (readReg s.x r))

/-- R2, R73: `resolve` is what the three sub-blocks compute together. -/
def Obligations.SubBlocksComputeResolve : Prop :=
  ∀ (o : Opc) (r : RegIdx) (ex mem wb : Stage) (lcr : RegIdx),
    resolveBlocks o r ex mem wb lcr = resolve o r ex mem wb lcr

/-- R18, R19, R22: a bubble, or a stage without write intent, has no influence on a query, whatever its
other fields hold; with such a `WB` nor has `lcr`. -/
def Obligations.StagesWithoutAWriteAreIgnored : Prop :=
  ∀ (o : Opc) (r : RegIdx) (ex ex' mem mem' wb wb' : Stage) (lcr lcr' : RegIdx),
    (ex = ex' ∨ ((ex.valid && ex.regWrite) = false ∧ (ex'.valid && ex'.regWrite) = false)) →
    (mem = mem' ∨ ((mem.valid && mem.regWrite) = false ∧ (mem'.valid && mem'.regWrite) = false)) →
    ((wb = wb' ∧ lcr = lcr') ∨ ((wb.valid && wb.regWrite) = false ∧ (wb'.valid && wb'.regWrite) = false)) →
    resolve o r ex mem wb lcr = resolve o r ex' mem' wb' lcr'

/-- R20 (d): the field that is not authoritative is never selected: `EX.mem_data`, the `alu_result` of a
load, the `mem_data` of any other instruction. -/
def Obligations.NonAuthoritativeFieldsAreNeverRead : Prop :=
  ∀ (o : Opc) (r : RegIdx) (ex mem wb : Stage) (lcr : RegIdx) (a b c : Word),
    let hide := fun (st : Stage) (w : Word) =>
      if o.isLoad st.instr.opcode then { st with aluResult := w } else { st with memData := w }
    resolve o r { hide ex a with memData := b } (hide mem b) (hide wb c) lcr = resolve o r ex mem wb lcr

/-- R78: the ports of one forwarding instance agree with `resolve` and with each other. `fwd_kind` is 0 for
`NotFound`, 1 for `Value`, with the value on `fwd_value`, 2 for `StallRequired`, 3 for a failure; a value is
presented for kind 1 only and is the multiplexer's; `fwd_sel` is the encoder's choice; `stall` is 1 exactly
for kind 2; the fail code is 2 for kind 3 and else 0. Absent values are the model's choice (log 12). -/
def Obligations.ForwardPortsAgree : Prop :=
  ∀ (o : Opc) (r : RegIdx) (ex mem wb : Stage) (lcr : RegIdx),
    let p := forwardPorts o r ex mem wb lcr
    (resolve o r ex mem wb lcr = .ok .notFound ↔ p.fwdKind = 0#2) ∧
    (∀ v, resolve o r ex mem wb lcr = .ok (.value v) ↔ p.fwdKind = 1#2 ∧ p.fwdValue = some v) ∧
    (resolve o r ex mem wb lcr = .ok .stallRequired ↔ p.fwdKind = 2#2) ∧
    ((∃ f, resolve o r ex mem wb lcr = .error f) ↔ p.fwdKind = 3#2) ∧
    p.fwdSel = (selFor o r ex mem wb lcr).code ∧
    p.fwdSel = (if stageHit o r ex = true then 1#2 else if stageHit o r mem = true then 2#2
      else if wbHit r wb lcr = true then 3#2 else 0#2) ∧
    (p.stall = true ↔ p.fwdKind = 2#2) ∧
    (p.fwdValue.isSome = true ↔ p.fwdKind = 1#2) ∧
    (∀ v, p.fwdValue = some v → forwardMux o (selFor o r ex mem wb lcr) (r == 0#4) ex mem wb = some v) ∧
    p.failCode = (if p.fwdKind = 3#2 then 2#2 else 0#2) ∧
    (r ≠ 0#4 → p.stall = true → p.fwdSel = 1#2)

/-! ### The branch resolver and the fetch state machine -/

/-- R85, R86, R89: what `resolve_branch` answers for each instruction, and for an unknown opcode. -/
def Obligations.BranchResolverDecides : Prop :=
  (∀ (o : Opc) (i : Instr) (va vb : Word) (pc : Addr), o.wf = true →
    resolveBranch o (i.fields o) va vb pc = .ok
      (match i with
        | .beq _ _ _ imm => if va = vb then .redirected imm else .sequential (pc + 1#12)
        | .blt _ _ _ imm => if va.toInt < vb.toInt then .redirected imm else .sequential (pc + 1#12)
        | .jal _ _ _ imm => .redirected imm
        | .addi .. => .sequential (pc + 1#12)
        | .subi .. => .sequential (pc + 1#12)
        | .lw .. => .sequential (pc + 1#12)
        | .halt .. => .sequential (pc + 1#12))) ∧
  (∀ (o : Opc) (f : Fields) (va vb : Word) (pc : Addr), o.known f.opcode = false →
    resolveBranch o f va vb pc = .error (.encodingError f.opcode))

/-- R106: the arithmetic of the set, in integers: sums and differences of 32-bit values and sign-extended
12-bit immediates wrap modulo 2^32; equality is of all 32 bits; less-than is signed; a target is the
unsigned field. -/
def Obligations.ArithmeticIsModulo32 : Prop :=
  (∀ (v : Word) (imm : Imm), (aluReference .addi v imm).toInt = (v.toInt + imm.toInt).bmod (2 ^ 32)) ∧
  (∀ (v : Word) (imm : Imm), (aluReference .subi v imm).toInt = (v.toInt - imm.toInt).bmod (2 ^ 32)) ∧
  (∀ (v : Word) (imm : Imm), (aluReference .lw v imm).toInt = (v.toInt + imm.toInt).bmod (2 ^ 32)) ∧
  (∀ va vb : Word, condEqual va vb = true ↔ va.toNat = vb.toNat) ∧
  (∀ va vb : Word, condLess va vb = true ↔ va.toInt < vb.toInt) ∧
  (∀ (o : Opc) (f : Fields) (va vb : Word) (pc t : Addr),
    resolveBranch o f va vb pc = .ok (.redirected t) → t.toNat = f.imm.toNat)

/-- R92, R121: in a fetch cycle the word at `pc` is latched, marked when it is out of the image, and `pc`
and `fs` take what the instruction in decode resolved to, or `pc + 1` modulo 4096 and `Sequential`; a
redirect is recorded as an event. -/
def Obligations.FetchCycleFollowsTheRedirect : Prop :=
  ∀ s t : State, s.Live → step s = .next t → t.failed = none → s.fetchStop = false → ¬ s.Waits →
    ¬ s.HaltInDecode →
    t.ifid = s.wordAtPc ∧
    (match s.redirectNow with
      | .redirected a => t.pc = a ∧ t.fs = .redirected a ∧ Event.redirect s.cycle a ∈ t.events
      | .sequential n => n.toNat = (s.pc.toNat + 1) % 4096 ∧ t.pc = n ∧ t.fs = .sequential)

/-- R93, R116: a stall. `EX` takes a bubble; `IFID`, `pc`, `fs` and `fetch_stop` hold; `MEM` and `WB`
advance, so the load is in `MEM` in the next cycle and the register that stalled is answered with its
`mem_data`; nothing resolves; the stall lasts one cycle. -/
def Obligations.StallHoldsFetchForOneCycle : Prop :=
  ∀ s : State, s.Live → s.MemoryStageReady → s.Waits →
    ∃ t w, step s = .next t ∧ t.failed = none ∧ t.ex = .bubble ∧ t.ifid = s.ifid ∧ t.pc = s.pc ∧
      t.fs = s.fs ∧ t.fetchStop = s.fetchStop ∧ s.LoadInEx ∧
      s.memory.dmem[s.ex.aluResult.toNat]? = some w ∧ t.mem = { s.ex with memData := w } ∧ t.wb = s.mem ∧
      t.lcr = (if s.mem.valid = true ∧ s.mem.regWrite = true then effectiveDestination s.params.opc s.mem.instr
        else 0#4) ∧
      (∀ c a, Event.redirect c a ∈ t.events → Event.redirect c a ∈ s.events) ∧
      (∀ r, query s r = .ok .stallRequired → query t r = .ok (.value w)) ∧ ¬ t.Waits

/-- R94: from the cycle in which a `HALT` is in decode, and once fetch has stopped, `pc` and `fs` keep
their values until the run ends. That they stand in the state after its end too is the model's (R122 says
nothing of them there; DEDUCED, log 18). -/
def Obligations.FetchStaysStopped : Prop :=
  ∀ (n : Nat) (s t : State), s.Live → s.MemoryStageReady → s.fetchStop = true ∨ s.HaltInDecode →
    run (n + 1) s = .next t → t.failed = none → t.fetchStop = true ∧ t.pc = s.pc ∧ t.fs = s.fs

/-- R84, R95: the delay slot. In the cycle in which a control transfer is decided taken, the word at `pc`
is latched as it is in any other fetch cycle; in the next fetch cycle that word is in decode and the
target is fetched; what is fetched after it is the delay-slot instruction's own decision, with the target
as its delay slot. -/
def Obligations.DelaySlotThenTarget : Prop :=
  ∀ (s t u : State) (a : Addr), s.params.wf = true → s.Live → step s = .next t → t.failed = none →
    s.fetchStop = false → s.redirectNow = .redirected a →
    t.ifid = s.wordAtPc ∧ t.ifid.ipc = s.pc ∧ t.pc = a ∧
    (t.halted = false → ¬ t.Waits → ¬ t.HaltInDecode → step t = .next u → u.failed = none →
      u.ifid = t.wordAtPc ∧ u.ifid.ipc = a ∧
      u.pc = (match t.redirectNow with | .redirected b => b | .sequential _ => a + 1#12))

/-! ### The cycle -/

/-- R112, R125: write-back. In a cycle that does not fail, the instruction in `WB` commits its result to its
effective destination, if it is not 0, and no other register changes; the event is recorded; a `HALT` ends
the run. -/
def Obligations.WriteBackCommits : Prop :=
  ∀ s t : State, s.Live → step s = .next t → t.failed = none →
    let d := effectiveDestination s.params.opc s.wb.instr
    let v := if s.params.opc.isLoad s.wb.instr.opcode then s.wb.memData else s.wb.aluResult
    let writes := s.wb.valid = true ∧ s.wb.regWrite = true ∧ d ≠ 0#4
    (writes → readReg t.x d = v ∧ Event.commit s.cycle d v ∈ t.events ∧
      commitsOf t.events = commitsOf s.events ++ [(d, v)]) ∧
    (¬ writes → t.x = s.x ∧ commitsOf t.events = commitsOf s.events) ∧
    (∀ r, r ≠ d → readReg t.x r = readReg s.x r) ∧
    (t.halted = true ↔ s.wb.valid = true ∧ s.params.opc.isHalt s.wb.instr.opcode = true)

/-- R114, R115: in a cycle that does not fail `WB` takes `MEM`, `lcr` the destination the new `WB` retires
or 0, and `MEM` takes `EX`, with the loaded word as `mem_data` for a load; so `lcr` agrees with the new
`WB`. A load outside the image fails instead. -/
def Obligations.StagesAdvance : Prop :=
  ∀ s : State, s.Live →
    (∀ t, step s = .next t → t.failed = none →
      t.wb = s.mem ∧
      t.lcr = (if s.mem.valid = true ∧ s.mem.regWrite = true then effectiveDestination s.params.opc s.mem.instr
        else 0#4) ∧
      (s.LoadInEx → ∃ w, s.memory.dmem[s.ex.aluResult.toNat]? = some w ∧ t.mem = { s.ex with memData := w }) ∧
      (¬ s.LoadInEx → t.mem = s.ex) ∧ t.PLcr ∧ t.cycle = s.cycle + 1) ∧
    (s.LoadInEx → s.memory.dlen ≤ s.ex.aluResult.toNat →
      step s = .next { s with failed := some (.dataAddressOutOfImage s.ex.aluResult) })

/-- R123: one failure a cycle, the oldest instruction's: the load leaving `EX`, then the word in decode (out
of the image, then unknown), then its port A query, then its port B query, even when port A stalls. Nothing
else changes and the core takes no further step. That the step after it answers the failure as its fault is
the model's choice (DESIGN CHOICE, log 2). -/
def Obligations.OldestFailureIsReported : Prop :=
  ∀ s : State, s.Live →
    let failsWith := fun f : Fault =>
      step s = .next { s with failed := some f } ∧ step { s with failed := some f } = .fault f
    (s.LoadInEx → s.memory.dlen ≤ s.ex.aluResult.toNat → failsWith (.dataAddressOutOfImage s.ex.aluResult)) ∧
    (s.MemoryStageReady → s.ifid.valid = true → s.ifid.oob = true → failsWith (.fetchOutOfImage s.ifid.ipc)) ∧
    (s.MemoryStageReady → s.ifid.valid = true → s.ifid.oob = false →
      s.params.opc.known (decodeFields s.ifid.word).opcode = false →
      failsWith (.encodingError (decodeFields s.ifid.word).opcode)) ∧
    (∀ i f, s.MemoryStageReady → presented s = .instruction i → query s i.portA = .error f → failsWith f) ∧
    (∀ i q f, s.MemoryStageReady → presented s = .instruction i → query s i.portA = .ok q →
      query s i.portB = .error f → failsWith f)

/-- R138: a failure is terminal. The failing cycle changes nothing but `failed`, and every run from there
reports that failure, as its fault: the model's choice (DESIGN CHOICE, log 2). -/
def Obligations.FailureIsTerminal : Prop :=
  ∀ (s t : State) (f : Fault), s.failed = none → step s = .next t → t.failed = some f →
    t = { s with failed := some f } ∧ ∀ n, run (n + 1) t = .fault f

/-- R117 to R119: a step of a live core whose `IFID` holds a word of the image that decodes to `i` is `exec`
of `i` at that state; with nothing in decode `EX` takes a bubble and fetch goes on sequentially. -/
def Obligations.StepRunsTheDecodedInstruction : Prop :=
  (∀ (s : State) (i : Instr), s.Live → s.ifid.valid = true → s.ifid.oob = false →
    decode s.params.opc s.ifid.word = .ok i → step s = exec i s) ∧
  (∀ s : State, s.Live → s.MemoryStageReady → s.ifid.valid = false →
    ∃ t, step s = .next t ∧ t.ex = .bubble ∧ FetchSide s t (.sequential (s.pc + 1#12)) false)

/-- R109, R124: the step, which goes through the instructions' meanings, is `advance` as the spec writes
it, over the raw fields of the word; `advance` is the identity on a halted or failed core, where the step
stays, or reports the failure. -/
def Obligations.StepIsAdvance : Prop :=
  ∀ s : State, s.params.wf = true →
    (s.failed = none → step s = .next (advance s)) ∧
    (∀ f, s.failed = some f → step s = .fault f ∧ advance s = s) ∧
    (s.halted = true → advance s = s)

/-! ### The instructions -/

/-- R102: `ADDI`. With its operand it issues: `EX` takes it with write intent and the sum as `alu_result`
(the launch's `ALU`; by default `x[rs] + sext_12(imm)` modulo 2^32), fetch goes on sequentially, the sum is
forwarded from every stage and committed to `rd`, discarded if `rd` = 0. -/
def Obligations.AddiAddsAndCommits : Prop :=
  ∀ (s : State) (rd rs rt : RegIdx) (imm : Imm) (va : Word), s.params.wf = true → s.MemoryStageReady →
    s.operandNow rs = some va →
    ∃ t, exec (.addi rd rs rt imm) s = .next t ∧
      t.ex = { valid := true, instr := ⟨s.params.opc.addi, rd, rs, rt, imm⟩, regWrite := true,
               aluResult := alu s.params .addi va imm, memData := 0#32 } ∧
      (s.params.alu = .reference → t.ex.aluResult = va + imm.signExtend 32) ∧
      FetchSide s t (.sequential (s.pc + 1#12)) false ∧
      (rd ≠ 0#4 → ForwardedFromEveryStage s.params.opc t.ex rd t.ex.aluResult) ∧
      CommitsTo t rd t.ex.aluResult

/-- R103: `SUBI`, as `ADDI` with the difference. -/
def Obligations.SubiSubtractsAndCommits : Prop :=
  ∀ (s : State) (rd rs rt : RegIdx) (imm : Imm) (va : Word), s.params.wf = true → s.MemoryStageReady →
    s.operandNow rs = some va →
    ∃ t, exec (.subi rd rs rt imm) s = .next t ∧
      t.ex = { valid := true, instr := ⟨s.params.opc.subi, rd, rs, rt, imm⟩, regWrite := true,
               aluResult := alu s.params .subi va imm, memData := 0#32 } ∧
      (s.params.alu = .reference → t.ex.aluResult = va - imm.signExtend 32) ∧
      FetchSide s t (.sequential (s.pc + 1#12)) false ∧
      (rd ≠ 0#4 → ForwardedFromEveryStage s.params.opc t.ex rd t.ex.aluResult) ∧
      CommitsTo t rd t.ex.aluResult

/-- R104, R135: `LW`. It issues with its word address in `alu_result` and commits the data word at that
address to `rd`, discarded if `rd` = 0. In `EX` a request for `rd` stalls; from `MEM` and `WB` it is answered
with the loaded word. An address outside the data image fails as the load leaves `EX`, whatever `rd` is. -/
def Obligations.LwLoadsAndCommits : Prop :=
  ∀ (s : State) (rd rs rt : RegIdx) (imm : Imm) (va : Word), s.params.wf = true → s.MemoryStageReady →
    s.operandNow rs = some va →
    ∃ t, exec (.lw rd rs rt imm) s = .next t ∧
      t.ex = { valid := true, instr := ⟨s.params.opc.lw, rd, rs, rt, imm⟩, regWrite := true,
               aluResult := alu s.params .lw va imm, memData := 0#32 } ∧
      (s.params.alu = .reference → t.ex.aluResult = va + imm.signExtend 32) ∧
      FetchSide s t (.sequential (s.pc + 1#12)) false ∧
      (rd ≠ 0#4 → ∀ mem wb lcr, resolve s.params.opc rd t.ex mem wb lcr = .ok .stallRequired) ∧
      (rd ≠ 0#4 → ∀ w, ForwardedOnceLoaded s.params.opc { t.ex with memData := w } rd w) ∧
      (∀ w, s.memory.dmem[t.ex.aluResult.toNat]? = some w → CommitsTo t rd w) ∧
      (t.Live → s.memory.dlen ≤ t.ex.aluResult.toNat →
        step t = .next { t with failed := some (.dataAddressOutOfImage t.ex.aluResult) })

/-- R96: `BEQ`. With its operands it resolves: redirected to its `imm` field when they are equal in all 32
bits, else sequential; the word at `pc`, its delay slot, is latched either way; no register is written. -/
def Obligations.BeqRedirectsWhenEqual : Prop :=
  ∀ (s : State) (rd rs rt : RegIdx) (imm : Imm) (va vb : Word), s.params.wf = true → s.MemoryStageReady →
    s.operandNow rs = some va → s.operandNow rt = some vb →
    ∃ t, exec (.beq rd rs rt imm) s = .next t ∧
      t.ex = { valid := true, instr := ⟨s.params.opc.beq, rd, rs, rt, imm⟩, regWrite := false,
               aluResult := 0#32, memData := 0#32 } ∧
      FetchSide s t (if va = vb then .redirected imm else .sequential (s.pc + 1#12)) false ∧
      (∀ r, stageHit s.params.opc r t.ex = false) ∧ CommitsNothing t

/-- R97: `BLT`, as `BEQ` with the signed comparison of the two values. -/
def Obligations.BltRedirectsWhenSignedLess : Prop :=
  ∀ (s : State) (rd rs rt : RegIdx) (imm : Imm) (va vb : Word), s.params.wf = true → s.MemoryStageReady →
    s.operandNow rs = some va → s.operandNow rt = some vb →
    ∃ t, exec (.blt rd rs rt imm) s = .next t ∧
      t.ex = { valid := true, instr := ⟨s.params.opc.blt, rd, rs, rt, imm⟩, regWrite := false,
               aluResult := 0#32, memData := 0#32 } ∧
      FetchSide s t (if va.toInt < vb.toInt then .redirected imm else .sequential (s.pc + 1#12)) false ∧
      (∀ r, stageHit s.params.opc r t.ex = false) ∧ CommitsNothing t

/-- R98, R99: `JAL`. It reads no register and always redirects to its `imm` field; `alu_result` is its own
address plus `LINK_OFFSET` modulo 4096, zero-extended, which is forwarded to requests for register 15, and
to no others, and committed to register 15, whatever `rd` holds. -/
def Obligations.JalLinksAndRedirects : Prop :=
  ∀ (s : State) (rd rs rt : RegIdx) (imm : Imm), s.params.wf = true → s.MemoryStageReady →
    ∃ t, exec (.jal rd rs rt imm) s = .next t ∧ t.ex.valid = true ∧ t.ex.regWrite = true ∧
      t.ex.instr = ⟨s.params.opc.jal, rd, rs, rt, imm⟩ ∧ t.ex.memData = 0#32 ∧
      t.ex.aluResult.toNat =
        (s.ifid.ipc.toNat + (match s.params.linkOffset with | .one => 1 | .two => 2)) % 4096 ∧
      FetchSide s t (.redirected imm) false ∧
      (∀ r, stageHit s.params.opc r t.ex = true ↔ r = 15#4) ∧
      ForwardedFromEveryStage s.params.opc t.ex 15#4 t.ex.aluResult ∧
      CommitsTo t 15#4 t.ex.aluResult

/-- R105, R120: `HALT`. It reads no register; fetch stops in the cycle in which it is in decode, nothing is
ever in decode again, `pc` and `fs` hold in this cycle and every later one, and the run ends in the cycle in
which it is in `WB`, with no instruction younger than it in the pipeline; it writes no register. The zeros of
the emptied `IFID` are the model's choice (DESIGN CHOICE, log 7); so are the words about the state after the
end, where R122 says nothing of the stages, `pc` and `fs` (DEDUCED, log 18). -/
def Obligations.HaltStopsTheCore : Prop :=
  ∀ (s : State) (rd rs rt : RegIdx) (imm : Imm), s.params.wf = true → s.MemoryStageReady →
    ∃ t, exec (.halt rd rs rt imm) s = .next t ∧
      t.ex = { valid := true, instr := ⟨s.params.opc.halt, rd, rs, rt, imm⟩, regWrite := false,
               aluResult := 0#32, memData := 0#32 } ∧
      FetchSide s t (.sequential (s.pc + 1#12)) true ∧
      (∀ r, stageHit s.params.opc r t.ex = false) ∧
      (∀ n v, run n t = .next v → presented v = .nothing ∧ v.fetchStop = true ∧ v.pc = s.pc ∧ v.fs = s.fs) ∧
      CommitsNothing t ∧
      (∀ u w, RetiresInto t u w → u.ex.valid = false ∧ u.mem.valid = false ∧ w.halted = true ∧
        (∀ st ∈ [w.ex, w.mem, w.wb], st.valid = false) ∧ ∀ n, run n w = .next w)

/-- R13, R38, R112, R123: the frame of all seven instructions. The cycle in which an instruction stands in
decode changes no register but the one the instruction in `WB` commits, no word of either memory and no
model argument; a cycle that fails changes `failed` only; `lcr` follows `MEM`; `halted` is set by a `HALT` in
`WB` only. -/
def Obligations.ExecFrame : Prop :=
  ∀ (i : Instr) (s t : State), exec i s = .next t →
    (∀ r, ¬ (s.wb.valid = true ∧ s.wb.regWrite = true ∧ effectiveDestination s.params.opc s.wb.instr = r) →
      readReg t.x r = readReg s.x r) ∧
    readReg t.x 0#4 = 0#32 ∧ t.x[0] = s.x[0] ∧
    (∀ a, imemRead t.memory a = imemRead s.memory a) ∧ (∀ a, dmemRead t.memory a = dmemRead s.memory a) ∧
    t.params = s.params ∧
    (t.failed ≠ s.failed → ∃ f, t = { s with failed := some f }) ∧
    (t.lcr = s.lcr ∨ t.lcr = 0#4 ∨
      (s.mem.valid = true ∧ s.mem.regWrite = true ∧ t.lcr = effectiveDestination s.params.opc s.mem.instr)) ∧
    (t.halted = true → s.halted = true ∨ s.HoldsHalt s.wb) ∧
    (s.fetchStop = true → t.fetchStop = true ∧ t.pc = s.pc ∧ t.fs = s.fs)

/-! ### Invariants, reset, whole runs -/

/-- R29, R148: what a launch leaves in every piece of state. -/
def Obligations.LaunchValues : Prop :=
  ∀ l : Launch, let s := State.launch l
    (∀ r, readReg s.x r = 0#32) ∧ s.pc = 0#12 ∧ s.fs = .sequential ∧
    (∀ st ∈ [s.ex, s.mem, s.wb], st =
      { valid := false, instr := ⟨0#8, 0#4, 0#4, 0#4, 0#12⟩, regWrite := false, aluResult := 0#32,
        memData := 0#32 }) ∧
    s.lcr = 0#4 ∧ s.ifid.valid = false ∧ s.fetchStop = false ∧ s.halted = false ∧ s.failed = none ∧
    s.cycle = 0 ∧ s.memory = l.memory ∧ s.params = l.params

/-- The invariant holds at a launch (R29), the reset state among them. -/
def Obligations.InvHoldsAtLaunch : Prop :=
  (∀ l : Launch, l.wf = true → (State.launch l).Inv) ∧ State.reset.Inv

/-- Every step keeps the invariant (R13, R22 to R24, R28, R55, R93, R114, R120, R121). -/
def Obligations.StepKeepsInv : Prop :=
  ∀ s t : State, s.Inv → step s = .next t → t.Inv

/-- R23, R114, R133: a run from a launch never raises `HazardPolicyViolation`. -/
def Obligations.NoRunRaisesAViolation : Prop :=
  ∀ (l : Launch) (n : Nat) (a b : RegIdx), l.wf = true →
    run n (State.launch l) ≠ .fault (.hazardPolicyViolation a b)

/-- R93, the remark: in the states a core reaches, a stall never coincides with a redirect being fetched. -/
def Obligations.NoStallWhileRedirected : Prop :=
  ∀ s : State, s.Inv → s.Waits → s.fs = .sequential

/-- R33, R38, R44: no run changes a word of either memory or a model argument, so every fetch and every load
sees the image. -/
def Obligations.ImagesNeverChange : Prop :=
  ∀ (n : Nat) (s t : State), run n s = .next t →
    (∀ a, imemRead t.memory a = imemRead s.memory a) ∧ (∀ a, dmemRead t.memory a = dmemRead s.memory a) ∧
    t.memory = s.memory ∧ t.params = s.params

/-- R127, the normal end: `ENV` from a launch halts exactly when the instruction-level view stops at a
`HALT`, with the same register file and the same sequence of register writes. -/
def Obligations.HaltedRunsAgreeWithTheView : Prop :=
  ∀ l : Launch, l.wf = true → ∀ (x : Vector Word 16) (writes : List (RegIdx × Word)),
    (∃ n s, run n (State.launch l) = .next s ∧ s.NormalEnd ∧ s.x = x ∧ commitsOf s.events = writes) ↔
    (∃ m v, viewRun l m View.start = .stopped v ∧ v.x = x ∧ v.writes = writes)

/-- R127, the failures: `ENV` from a launch fails exactly when the instruction-level view raises, with the
same failure and argument. -/
def Obligations.FailedRunsAgreeWithTheView : Prop :=
  ∀ l : Launch, l.wf = true → ∀ f : Fault,
    (∃ n, run n (State.launch l) = .fault f) ↔ (∃ m v, viewRun l m View.start = .raised f v)

/-- R156: a run that ends normally takes as many cycles as it issued instructions, plus its stall cycles,
plus four. -/
def Obligations.NormalRunCycleCount : Prop :=
  ∀ (l : Launch) (n : Nat) (s t : State), l.wf = true → run n (State.launch l) = .next s →
    s.halted = false → step s = .next t → t.halted = true →
    n + 1 = countCycles issuesNow (n + 1) (State.launch l) + countCycles waitsNow (n + 1) (State.launch l) + 4

/-- R8, R128: any interleaving of the cores' cycles gives each core the run it has alone; a machine has
`NCORES` cores, at least 1, each launched with its own instruction image, all at address 0 with the same data
image, and its run is not over at once; it is over when every core's is. -/
def Obligations.CoresRunIndependently : Prop :=
  (∀ (sched : List Nat) (cores : List State) (k : Nat),
    (runCores sched cores)[k]? = (cores[k]?).map (cycles (sched.count k))) ∧
  (∀ (m : MachineLaunch) (s : State), s ∈ launchCores m → s.memory.dmem = m.dmem ∧ s.pc = 0#12) ∧
  (∀ (m : MachineLaunch) (k : Nat), (launchCores m)[k]? =
    (m.cores[k]?).map fun c => State.launch { memory := { imem := c.1, dmem := m.dmem }, params := c.2 }) ∧
  (∀ m : MachineLaunch, m.wf = true →
    1 ≤ (launchCores m).length ∧ (launchCores m).length = m.ncores ∧ coresOver (launchCores m) = false) ∧
  (∀ cores : List State, coresOver cores = true ↔ ∀ s ∈ cores, s.halted = true ∨ s.failed ≠ none)

/-- R126, R127: the two views agree for every launch: at a normal end, at a failure, and, otherwise, in running
for ever. The spec expects this of its rules and asks a model to prove or test it. -/
def Obligations.TheTwoViewsAgree : Prop := ∀ l : Launch, l.wf = true → AgreesWithView l

/-- R149: the first cycles after a launch. Cycle 0 fetches the word at address 0, marked if the image is
empty, and `fs` is `Sequential`; in cycles 0 and 1 all three stages hold bubbles and every query is answered
`NotFound`, or `Value(0)` for register 0; in cycle 2 so do `MEM` and `WB`, and in cycle 3 `WB`. R149 says this of
the queries of three cycles; in the third the model has it of every register that the first instruction, in
`EX` by R111 and R124, does not write: DEDUCED (log 19). -/
def Obligations.FirstCyclesAfterALaunch : Prop :=
  ∀ (l : Launch) (n : Nat) (s : State), run n (State.launch l) = .next s →
    (n = 1 → s.ifid = (if 0 < l.memory.plen
        then { valid := true, word := l.memory.imem.getD 0 0#32, ipc := 0#12, oob := false }
        else { valid := true, word := 0#32, ipc := 0#12, oob := true }) ∧
      s.pc = 1#12 ∧ s.fs = .sequential ∧ s.cycle = 1) ∧
    (n ≤ 1 → (∀ st ∈ [s.ex, s.mem, s.wb], st.valid = false) ∧
      ∀ r, query s r = .ok (if r = 0#4 then .value 0#32 else .notFound)) ∧
    (n ≤ 2 → s.mem.valid = false ∧ s.wb.valid = false ∧
      ∀ r, stageHit s.params.opc r s.ex = false →
        query s r = .ok (if r = 0#4 then .value 0#32 else .notFound)) ∧
    (n ≤ 3 → s.wb.valid = false)

/-- R111, R125, R156: an instruction that leaves `ID` in cycle `c` is in `EX` in cycle `c + 1`, in `MEM` in
`c + 2`, in `WB` in `c + 3`, where its commit event stands, and is retired in `c + 4`: there its destination
holds the value it committed, or, for a `HALT`, the run is over. R156 counts 4 cycles to the commit; that the
event carries the cycle `c + 3` and the register has the value in cycle `c + 4` is DEDUCED (log 20). -/
def Obligations.RetiredFourCyclesAfterDecode : Prop :=
  ∀ (s t u w : State) (i : Instr), s.params.wf = true → s.Live → presented s = .instruction i → ¬ s.Waits →
    step s = .next t → t.failed = none → RetiresInto t u w →
    let f := i.fields s.params.opc
    let d := effectiveDestination s.params.opc f
    let v := stageValue s.params.opc u.wb
    (t.cycle = s.cycle + 1 ∧ t.ex.valid = true ∧ t.ex.instr = f) ∧
    (∀ m, step t = .next m → m.cycle = s.cycle + 2 ∧ m.mem.valid = true ∧ m.mem.instr = f) ∧
    (u.cycle = s.cycle + 3 ∧ u.wb.valid = true ∧ u.wb.instr = f) ∧ w.cycle = s.cycle + 4 ∧
    (i.regWrite = true → d ≠ 0#4 → Event.commit (s.cycle + 3) d v ∈ w.events ∧ readReg w.x d = v) ∧
    (w.halted = true ↔ s.params.opc.isHalt f.opcode = true)
end

