-- ==== Sys2Proof/Laws/Encoding.lean ====
section
/-! SUPPORT. The opcode map: an injective map's numbers are distinct, and the class tests of an encoded
instruction. -/

namespace Sys2Proof

/-- An injective map has no two equal numbers. -/
theorem Opc.distinct {o : Opc} (h : o.wf = true) :
    (o.addi ≠ o.subi ∧ o.addi ≠ o.lw ∧ o.addi ≠ o.beq ∧ o.addi ≠ o.blt ∧ o.addi ≠ o.jal ∧ o.addi ≠ o.halt) ∧
    (o.subi ≠ o.lw ∧ o.subi ≠ o.beq ∧ o.subi ≠ o.blt ∧ o.subi ≠ o.jal ∧ o.subi ≠ o.halt) ∧
    (o.lw ≠ o.beq ∧ o.lw ≠ o.blt ∧ o.lw ≠ o.jal ∧ o.lw ≠ o.halt) ∧
    (o.beq ≠ o.blt ∧ o.beq ≠ o.jal ∧ o.beq ≠ o.halt) ∧
    (o.blt ≠ o.jal ∧ o.blt ≠ o.halt) ∧ o.jal ≠ o.halt := by
  simpa [Opc.wf, Opc.numbers, and_assoc] using h

/-- An encoded instruction's opcode is in the map. -/
theorem Instr.known_fields (o : Opc) (i : Instr) : o.known (i.fields o).opcode = true := by
  cases i <;> simp [Opc.known, Opc.numbers, Instr.fields]

/-- The opcode number of an encoded instruction is the one of its row (R50). -/
theorem Instr.fields_opcode (o : Opc) (i : Instr) :
    (i.fields o).opcode =
      match i with
      | .addi .. => o.addi
      | .subi .. => o.subi
      | .lw .. => o.lw
      | .beq .. => o.beq
      | .blt .. => o.blt
      | .jal .. => o.jal
      | .halt .. => o.halt := by
  cases i <;> rfl

/-- Only the load is a load (R51). -/
theorem Instr.isLoad_fields {o : Opc} (h : o.wf = true) (i : Instr) :
    o.isLoad (i.fields o).opcode = (match i with | .lw .. => true | _ => false) := by
  obtain ⟨⟨_, h1, _, _, _, _⟩, ⟨h2, _, _, _, _⟩, ⟨h3, h4, h5, h6⟩, _⟩ := Opc.distinct h
  cases i <;> simp [Opc.isLoad, Instr.fields, h1, h2, h3.symm, h4.symm, h5.symm, h6.symm]

/-- Only the jump-and-link is a jump-and-link (R51). -/
theorem Instr.isJal_fields {o : Opc} (h : o.wf = true) (i : Instr) :
    o.isJal (i.fields o).opcode = (match i with | .jal .. => true | _ => false) := by
  obtain ⟨⟨_, _, _, _, h1, _⟩, ⟨_, _, _, h2, _⟩, ⟨_, _, h3, _⟩, ⟨_, h4, _⟩, ⟨h5, _⟩, h6⟩ := Opc.distinct h
  cases i <;> simp [Opc.isJal, Instr.fields, h1, h2, h3, h4, h5, h6.symm]

/-- Only the halt is a halt (R51). -/
theorem Instr.isHalt_fields {o : Opc} (h : o.wf = true) (i : Instr) :
    o.isHalt (i.fields o).opcode = (match i with | .halt .. => true | _ => false) := by
  obtain ⟨⟨_, _, _, _, _, h1⟩, ⟨_, _, _, _, h2⟩, ⟨_, _, _, h3⟩, ⟨_, _, h4⟩, ⟨_, h5⟩, h6⟩ := Opc.distinct h
  cases i <;> simp [Opc.isHalt, Instr.fields, h1, h2, h3, h4, h5, h6]

end Sys2Proof
end

