-- ==== Sys2Proof/Laws/State.lean ====
section
/-! SUPPORT. One lemma per field and per update of the state: what each shared operation leaves in each
field, true by unfolding, for simp. -/

namespace Sys2Proof.Machine

@[simp] theorem raise_x (f : Fault) (s : State) : (raise f s).x = s.x := rfl
@[simp] theorem raise_pc (f : Fault) (s : State) : (raise f s).pc = s.pc := rfl
@[simp] theorem raise_fs (f : Fault) (s : State) : (raise f s).fs = s.fs := rfl
@[simp] theorem raise_ex (f : Fault) (s : State) : (raise f s).ex = s.ex := rfl
@[simp] theorem raise_mem (f : Fault) (s : State) : (raise f s).mem = s.mem := rfl
@[simp] theorem raise_wb (f : Fault) (s : State) : (raise f s).wb = s.wb := rfl
@[simp] theorem raise_lcr (f : Fault) (s : State) : (raise f s).lcr = s.lcr := rfl
@[simp] theorem raise_ifid (f : Fault) (s : State) : (raise f s).ifid = s.ifid := rfl
@[simp] theorem raise_fetchStop (f : Fault) (s : State) : (raise f s).fetchStop = s.fetchStop := rfl
@[simp] theorem raise_halted (f : Fault) (s : State) : (raise f s).halted = s.halted := rfl
@[simp] theorem raise_failed (f : Fault) (s : State) : (raise f s).failed = some f := rfl
@[simp] theorem raise_cycle (f : Fault) (s : State) : (raise f s).cycle = s.cycle := rfl
@[simp] theorem raise_events (f : Fault) (s : State) : (raise f s).events = s.events := rfl
@[simp] theorem raise_memory (f : Fault) (s : State) : (raise f s).memory = s.memory := rfl
@[simp] theorem raise_params (f : Fault) (s : State) : (raise f s).params = s.params := rfl

@[simp] theorem shiftStages_x (m e : Stage) (s : State) : (shiftStages m e s).x = committedRegs s := rfl
@[simp] theorem shiftStages_pc (m e : Stage) (s : State) : (shiftStages m e s).pc = s.pc := rfl
@[simp] theorem shiftStages_fs (m e : Stage) (s : State) : (shiftStages m e s).fs = s.fs := rfl
@[simp] theorem shiftStages_ex (m e : Stage) (s : State) : (shiftStages m e s).ex = e := rfl
@[simp] theorem shiftStages_mem (m e : Stage) (s : State) : (shiftStages m e s).mem = m := rfl
@[simp] theorem shiftStages_wb (m e : Stage) (s : State) : (shiftStages m e s).wb = s.mem := rfl
@[simp] theorem shiftStages_lcr (m e : Stage) (s : State) : (shiftStages m e s).lcr = nextLcr s := rfl
@[simp] theorem shiftStages_ifid (m e : Stage) (s : State) : (shiftStages m e s).ifid = s.ifid := rfl
@[simp] theorem shiftStages_fetchStop (m e : Stage) (s : State) : (shiftStages m e s).fetchStop = s.fetchStop := rfl
@[simp] theorem shiftStages_halted (m e : Stage) (s : State) : (shiftStages m e s).halted = haltCommits s := rfl
@[simp] theorem shiftStages_failed (m e : Stage) (s : State) : (shiftStages m e s).failed = s.failed := rfl
@[simp] theorem shiftStages_cycle (m e : Stage) (s : State) : (shiftStages m e s).cycle = s.cycle + 1 := rfl
@[simp] theorem shiftStages_events (m e : Stage) (s : State) : (shiftStages m e s).events = s.events ++ commitEvents s := rfl
@[simp] theorem shiftStages_memory (m e : Stage) (s : State) : (shiftStages m e s).memory = s.memory := rfl
@[simp] theorem shiftStages_params (m e : Stage) (s : State) : (shiftStages m e s).params = s.params := rfl

@[simp] theorem fetchStage_x (s : State) (fr : FetchRedirect) (stop : Bool) (t : State) :
    (fetchStage s fr stop t).x = t.x := rfl
@[simp] theorem fetchStage_pc (s : State) (fr : FetchRedirect) (stop : Bool) (t : State) :
    (fetchStage s fr stop t).pc = if s.fetchStop || stop then s.pc else fr.addr := by
  cases h : s.fetchStop <;> cases stop <;> simp [fetchStage, fetchTransition, h]
@[simp] theorem fetchStage_fs (s : State) (fr : FetchRedirect) (stop : Bool) (t : State) :
    (fetchStage s fr stop t).fs = if s.fetchStop || stop then s.fs else fr.state := by
  cases h : s.fetchStop <;> cases stop <;> simp [fetchStage, fetchTransition, h]
@[simp] theorem fetchStage_ex (s : State) (fr : FetchRedirect) (stop : Bool) (t : State) :
    (fetchStage s fr stop t).ex = t.ex := rfl
@[simp] theorem fetchStage_mem (s : State) (fr : FetchRedirect) (stop : Bool) (t : State) :
    (fetchStage s fr stop t).mem = t.mem := rfl
@[simp] theorem fetchStage_wb (s : State) (fr : FetchRedirect) (stop : Bool) (t : State) :
    (fetchStage s fr stop t).wb = t.wb := rfl
@[simp] theorem fetchStage_lcr (s : State) (fr : FetchRedirect) (stop : Bool) (t : State) :
    (fetchStage s fr stop t).lcr = t.lcr := rfl
@[simp] theorem fetchStage_ifid (s : State) (fr : FetchRedirect) (stop : Bool) (t : State) :
    (fetchStage s fr stop t).ifid = if s.fetchStop || stop then .bubble else fetchedWord s := rfl
@[simp] theorem fetchStage_fetchStop (s : State) (fr : FetchRedirect) (stop : Bool) (t : State) :
    (fetchStage s fr stop t).fetchStop = (s.fetchStop || stop) := rfl
@[simp] theorem fetchStage_halted (s : State) (fr : FetchRedirect) (stop : Bool) (t : State) :
    (fetchStage s fr stop t).halted = t.halted := rfl
@[simp] theorem fetchStage_failed (s : State) (fr : FetchRedirect) (stop : Bool) (t : State) :
    (fetchStage s fr stop t).failed = t.failed := rfl
@[simp] theorem fetchStage_cycle (s : State) (fr : FetchRedirect) (stop : Bool) (t : State) :
    (fetchStage s fr stop t).cycle = t.cycle := rfl
@[simp] theorem fetchStage_events (s : State) (fr : FetchRedirect) (stop : Bool) (t : State) :
    (fetchStage s fr stop t).events = t.events ++ if s.fetchStop || stop then [] else redirectEvents s.cycle fr := rfl
@[simp] theorem fetchStage_memory (s : State) (fr : FetchRedirect) (stop : Bool) (t : State) :
    (fetchStage s fr stop t).memory = t.memory := rfl
@[simp] theorem fetchStage_params (s : State) (fr : FetchRedirect) (stop : Bool) (t : State) :
    (fetchStage s fr stop t).params = t.params := rfl

@[simp] theorem withFetchWord_x (s : State) (n w : Nat) : (s.withFetchWord n w).x = s.x := rfl
@[simp] theorem withFetchWord_pc (s : State) (n w : Nat) : (s.withFetchWord n w).pc = s.pc + 1 := rfl
@[simp] theorem withFetchWord_fs (s : State) (n w : Nat) : (s.withFetchWord n w).fs = .sequential := rfl
@[simp] theorem withFetchWord_ex (s : State) (n w : Nat) : (s.withFetchWord n w).ex = s.ex := rfl
@[simp] theorem withFetchWord_mem (s : State) (n w : Nat) : (s.withFetchWord n w).mem = s.mem := rfl
@[simp] theorem withFetchWord_wb (s : State) (n w : Nat) : (s.withFetchWord n w).wb = s.wb := rfl
@[simp] theorem withFetchWord_lcr (s : State) (n w : Nat) : (s.withFetchWord n w).lcr = s.lcr := rfl
@[simp] theorem withFetchWord_ifid (s : State) (n w : Nat) : (s.withFetchWord n w).ifid = { valid := true, word := tableWord n w, ipc := s.pc, oob := false } := rfl
@[simp] theorem withFetchWord_fetchStop (s : State) (n w : Nat) : (s.withFetchWord n w).fetchStop = s.fetchStop := rfl
@[simp] theorem withFetchWord_halted (s : State) (n w : Nat) : (s.withFetchWord n w).halted = s.halted := rfl
@[simp] theorem withFetchWord_failed (s : State) (n w : Nat) : (s.withFetchWord n w).failed = s.failed := rfl
@[simp] theorem withFetchWord_cycle (s : State) (n w : Nat) : (s.withFetchWord n w).cycle = s.cycle := rfl
@[simp] theorem withFetchWord_events (s : State) (n w : Nat) : (s.withFetchWord n w).events = s.events := rfl
@[simp] theorem withFetchWord_memory (s : State) (n w : Nat) : (s.withFetchWord n w).memory = imemPlace s.memory s.pc (tableWord n w) := rfl
@[simp] theorem withFetchWord_params (s : State) (n w : Nat) : (s.withFetchWord n w).params = s.params := rfl

@[simp] theorem launch_x (l : Launch) : (State.launch l).x = State.reset.x := rfl
@[simp] theorem launch_pc (l : Launch) : (State.launch l).pc = State.reset.pc := rfl
@[simp] theorem launch_fs (l : Launch) : (State.launch l).fs = State.reset.fs := rfl
@[simp] theorem launch_ex (l : Launch) : (State.launch l).ex = State.reset.ex := rfl
@[simp] theorem launch_mem (l : Launch) : (State.launch l).mem = State.reset.mem := rfl
@[simp] theorem launch_wb (l : Launch) : (State.launch l).wb = State.reset.wb := rfl
@[simp] theorem launch_lcr (l : Launch) : (State.launch l).lcr = State.reset.lcr := rfl
@[simp] theorem launch_ifid (l : Launch) : (State.launch l).ifid = State.reset.ifid := rfl
@[simp] theorem launch_fetchStop (l : Launch) : (State.launch l).fetchStop = State.reset.fetchStop := rfl
@[simp] theorem launch_halted (l : Launch) : (State.launch l).halted = State.reset.halted := rfl
@[simp] theorem launch_failed (l : Launch) : (State.launch l).failed = State.reset.failed := rfl
@[simp] theorem launch_cycle (l : Launch) : (State.launch l).cycle = State.reset.cycle := rfl
@[simp] theorem launch_events (l : Launch) : (State.launch l).events = State.reset.events := rfl
@[simp] theorem launch_memory (l : Launch) : (State.launch l).memory = l.memory := rfl
@[simp] theorem launch_params (l : Launch) : (State.launch l).params = l.params := rfl

end Sys2Proof.Machine
end

