-- ==== Sys2Proof/Laws/Ops.lean ====
section
/-! SUPPORT. What the register and memory operations do: a read after a write, register 0, a read of an
image, and that every memory operation keeps the memory well formed. -/

namespace Sys2Proof.Machine

@[simp] theorem readReg_zero (x : Vector Word 16) : readReg x 0#4 = 0#32 := rfl

@[simp] theorem writeReg_zero (x : Vector Word 16) (v : Word) : writeReg x 0#4 v = x := rfl

theorem readReg_writeReg (x : Vector Word 16) (d r : RegIdx) (v : Word) :
    readReg (writeReg x d v) r = if d = r ∧ d ≠ 0#4 then v else readReg x r := by
  by_cases hd : d = 0#4
  · simp [hd]
  · by_cases hr : r = 0#4
    · subst hr
      simp [hd]
    · have hn : d.toNat = r.toNat ↔ d = r := BitVec.toNat_inj
      simp only [readReg, writeReg, hd, hr, if_false, Vector.getElem_set, hn]
      by_cases hdr : d = r <;> simp [hdr, hr]

theorem readReg_writeReg_same (x : Vector Word 16) {d : RegIdx} (v : Word) (h : d ≠ 0#4) :
    readReg (writeReg x d v) d = v := by simp [readReg_writeReg, h]

theorem readReg_writeReg_other (x : Vector Word 16) {d r : RegIdx} (v : Word) (h : d ≠ r) :
    readReg (writeReg x d v) r = readReg x r := by simp [readReg_writeReg, h]

/-- No write reaches entry 0 of the register file (R13). -/
theorem writeReg_entry_zero (x : Vector Word 16) (d : RegIdx) (v : Word) : (writeReg x d v)[0] = x[0] := by
  by_cases hd : d = 0#4
  · simp [hd]
  · have hn : d.toNat ≠ 0 := fun h => hd (BitVec.eq_of_toNat_eq h)
    simp [writeReg, hd, hn]

theorem imemRead_eq_ok {m : Memory} {a : Addr} {w : Word} :
    imemRead m a = .ok w ↔ m.imem[a.toNat]? = some w := by
  unfold imemRead; split <;> simp_all

theorem imemRead_eq_error {m : Memory} {a : Addr} {f : Fault} :
    imemRead m a = .error f ↔ m.plen ≤ a.toNat ∧ f = .fetchOutOfImage a := by
  unfold imemRead Memory.plen
  split
  · rename_i h
    obtain ⟨hlt, -⟩ := List.getElem?_eq_some_iff.1 h
    simp only [reduceCtorEq, false_iff]
    omega
  · rename_i h
    simp [List.getElem?_eq_none_iff.1 h, eq_comm]

theorem dmemRead_eq_ok {m : Memory} {a w : Word} : dmemRead m a = .ok w ↔ m.dmem[a.toNat]? = some w := by
  unfold dmemRead; split <;> simp_all

theorem dmemRead_eq_error {m : Memory} {a : Word} {f : Fault} :
    dmemRead m a = .error f ↔ m.dlen ≤ a.toNat ∧ f = .dataAddressOutOfImage a := by
  unfold dmemRead Memory.dlen
  split
  · rename_i h
    obtain ⟨hlt, -⟩ := List.getElem?_eq_some_iff.1 h
    simp only [reduceCtorEq, false_iff]
    omega
  · rename_i h
    simp [List.getElem?_eq_none_iff.1 h, eq_comm]

theorem Memory.wf_iff {m : Memory} : m.wf = true ↔ m.plen ≤ 4096 ∧ m.dlen ≤ 2 ^ 32 := by
  simp [Memory.wf]

/-- The one operation that writes an image keeps the memory well formed. -/
theorem imemPlace_wf {m : Memory} (a : Addr) (w : Word) (h : m.wf = true) : (imemPlace m a w).wf = true := by
  have ha := a.isLt
  rw [Memory.wf_iff] at h ⊢
  unfold imemPlace
  split
  · simpa [Memory.plen, Memory.dlen] using h
  · split
    · rename_i h2
      simp only [Memory.plen, Memory.dlen, List.length_append, List.length_singleton] at *
      omega
    · exact h

/-- The placed word is the one read back, where no word is missing below it. -/
theorem imemRead_imemPlace {m : Memory} {a : Addr} (w : Word) (h : a.toNat ≤ m.plen) :
    imemRead (imemPlace m a w) a = .ok w := by
  rw [imemRead_eq_ok]
  unfold imemPlace
  by_cases h1 : a.toNat < m.plen
  · simp only [Memory.plen] at h1
    simp [Memory.plen, h1]
  · have h2 : a.toNat = m.plen := by omega
    simp [h2, Memory.plen]

theorem imemPlace_dmem (m : Memory) (a : Addr) (w : Word) : (imemPlace m a w).dmem = m.dmem := by
  unfold imemPlace
  split
  · rfl
  · split <;> rfl

theorem empty_wf : Memory.empty.wf = true := by decide

/-- The two conditions compare as integers (R106). -/
theorem condLess_iff (va vb : Word) : condLess va vb = true ↔ va.toInt < vb.toInt := by
  simp [condLess, BitVec.slt]

theorem condEqual_iff (va vb : Word) : condEqual va vb = true ↔ va = vb := by simp [condEqual]

end Sys2Proof.Machine
end

