-- ==== Sys2Proof/Laws/Forwarding.lean ====
section
/-! SUPPORT. Everything a query of the forwarding unit can do: the stage hits as conjunctions, and the
cases of `resolve`, which later proofs cite instead of unfolding it. -/

namespace Sys2Proof.Machine

theorem stageHit_iff {o : Opc} {r : RegIdx} {st : Stage} :
    stageHit o r st = true ↔
      st.valid = true ∧ st.regWrite = true ∧ effectiveDestination o st.instr = r ∧ r ≠ 0#4 := by
  constructor
  · simp only [stageHit, Bool.and_eq_true, beq_iff_eq, bne_iff_ne, ne_eq, and_assoc]
    rintro ⟨h1, h2, rfl, h4⟩
    exact ⟨h1, h2, rfl, h4⟩
  · rintro ⟨h1, h2, rfl, h4⟩
    simp [stageHit, h1, h2, h4]

theorem wbHit_iff {r : RegIdx} {wb : Stage} {lcr : RegIdx} :
    wbHit r wb lcr = true ↔ wb.valid = true ∧ wb.regWrite = true ∧ lcr = r ∧ r ≠ 0#4 := by
  constructor
  · simp only [wbHit, Bool.and_eq_true, beq_iff_eq, bne_iff_ne, ne_eq, and_assoc]
    rintro ⟨h1, h2, rfl, h4⟩
    exact ⟨h1, h2, rfl, h4⟩
  · rintro ⟨h1, h2, rfl, h4⟩
    simp [wbHit, h1, h2, h4]

/-- No stage hits a request for register 0 (R69). -/
@[simp] theorem stageHit_zero (o : Opc) (st : Stage) : stageHit o 0#4 st = false := by
  rw [Bool.eq_false_iff, ne_eq, stageHit_iff]
  simp

/-- The cases of a query (R73): register 0, a hit in `EX`, a hit in `MEM`, an inconsistent `WB`, a hit in
`WB`, no hit. -/
theorem resolve_cases (o : Opc) (r : RegIdx) (ex mem wb : Stage) (lcr : RegIdx) :
    (r = 0#4 ∧ resolve o r ex mem wb lcr = .ok (.value 0#32)) ∨
    (stageHit o r ex = true ∧ o.isLoad ex.instr.opcode = true ∧ resolve o r ex mem wb lcr = .ok .stallRequired) ∨
    (stageHit o r ex = true ∧ o.isLoad ex.instr.opcode = false ∧
      resolve o r ex mem wb lcr = .ok (.value ex.aluResult)) ∨
    (stageHit o r ex = false ∧ stageHit o r mem = true ∧
      resolve o r ex mem wb lcr = .ok (.value (stageValue o mem))) ∨
    (r ≠ 0#4 ∧ stageHit o r ex = false ∧ stageHit o r mem = false ∧ wbBad o wb lcr = true ∧
      resolve o r ex mem wb lcr = .error (.hazardPolicyViolation lcr (effectiveDestination o wb.instr))) ∨
    (stageHit o r ex = false ∧ stageHit o r mem = false ∧ wbBad o wb lcr = false ∧ wbHit r wb lcr = true ∧
      resolve o r ex mem wb lcr = .ok (.value (stageValue o wb))) ∨
    (r ≠ 0#4 ∧ stageHit o r ex = false ∧ stageHit o r mem = false ∧ wbBad o wb lcr = false ∧
      wbHit r wb lcr = false ∧ resolve o r ex mem wb lcr = .ok .notFound) := by
  by_cases hr : r = 0#4
  · exact .inl ⟨hr, by simp [resolve, hr]⟩
  cases he : stageHit o r ex
  · cases hm : stageHit o r mem
    · cases hb : wbBad o wb lcr
      · cases hw : wbHit r wb lcr
        · refine .inr <| .inr <| .inr <| .inr <| .inr <| .inr ⟨hr, rfl, rfl, rfl, rfl, ?_⟩
          rw [Bool.eq_false_iff, ne_eq, wbHit_iff] at hw
          simp only [wbBad, Bool.and_eq_false_iff, bne_eq_false_iff_eq] at hb
          by_cases hv : wb.valid = true ∧ wb.regWrite = true
          · have hl : ¬ lcr = r := fun h => hw ⟨hv.1, hv.2, h, hr⟩
            simp [hv.1, hv.2] at hb
            simp [resolve, hr, he, hm, hv.1, hv.2, hb] at *
            intro h; exact absurd h hl
          · simp [resolve, hr, he, hm]
            intro h1 h2; exact absurd ⟨h1, h2⟩ hv
        · refine .inr <| .inr <| .inr <| .inr <| .inr <| .inl ⟨rfl, rfl, rfl, rfl, ?_⟩
          obtain ⟨h1, h2, rfl, h4⟩ := wbHit_iff.1 hw
          simp [wbBad, h1, h2] at hb
          cases hl : o.isLoad wb.instr.opcode <;> simp [resolve, hr, he, hm, h1, h2, ← hb, stageValue, hl]
      · refine .inr <| .inr <| .inr <| .inr <| .inl ⟨hr, rfl, rfl, rfl, ?_⟩
        simp only [wbBad, Bool.and_eq_true, bne_iff_ne] at hb
        simp [resolve, hr, he, hm, hb]
    · refine .inr <| .inr <| .inr <| .inl ⟨rfl, rfl, ?_⟩
      cases hl : o.isLoad mem.instr.opcode <;> simp [resolve, hr, he, hm, hl, stageValue]
  · cases hl : o.isLoad ex.instr.opcode
    · exact .inr <| .inr <| .inl ⟨rfl, rfl, by simp [resolve, hr, he, hl]⟩
    · exact .inr <| .inl ⟨rfl, rfl, by simp [resolve, hr, he, hl]⟩

end Sys2Proof.Machine
end

