-- ==== Sys2Proof/Laws/Pipeline.lean ====
section
/-! SUPPORT. Everything a cycle can do: the memory stage's input, the decode stage, the whole cycle, a
meaning, and the step, each as one case lemma that later proofs cite. -/

namespace Sys2Proof.Machine

/-- What the memory stage takes when no load fails: `EX`, with the loaded word for a load (R115). -/
def memNext (s : State) : Stage :=
  if s.ex.valid && s.params.opc.isLoad s.ex.instr.opcode then
    { s.ex with memData := s.memory.dmem.getD s.ex.aluResult.toNat 0#32 }
  else s.ex

/-- The memory stage's input (R115): the failure of a load, or `memNext`. -/
theorem memInput_cases (s : State) :
    (s.LoadInEx ∧ s.memory.dlen ≤ s.ex.aluResult.toNat ∧
      memInput s = .error (.dataAddressOutOfImage s.ex.aluResult)) ∨
    (s.MemoryStageReady ∧ memInput s = .ok (memNext s)) := by
  by_cases hl : s.LoadInEx
  · by_cases hd : s.ex.aluResult.toNat < s.memory.dlen
    · right
      refine ⟨fun _ => hd, ?_⟩
      simp only [Memory.dlen] at hd
      simp [memInput, memNext, hl.1, hl.2, dmemRead, hd, List.getD]
    · left
      have hd' : s.memory.dlen ≤ s.ex.aluResult.toNat := by omega
      refine ⟨hl, hd', ?_⟩
      simp only [memInput, hl.1, hl.2, Bool.and_self, if_true, dmemRead_eq_error.2 ⟨hd', rfl⟩]
  · right
    refine ⟨fun h => absurd h hl, ?_⟩
    have : (s.ex.valid && s.params.opc.isLoad s.ex.instr.opcode) = false := by
      rw [Bool.eq_false_iff, ne_eq, Bool.and_eq_true]; exact hl
    simp [memInput, memNext, this]

theorem memInput_of_ready {s : State} (h : s.MemoryStageReady) : memInput s = .ok (memNext s) := by
  rcases memInput_cases s with ⟨hl, hd, -⟩ | ⟨-, h'⟩
  · exact absurd (h hl) (by omega)
  · exact h'

/-- A stage register of `EX` or `MEM` keeps everything but `mem_data` on its way. -/
@[simp] theorem memNext_valid (s : State) : (memNext s).valid = s.ex.valid := by unfold memNext; split <;> rfl
@[simp] theorem memNext_instr (s : State) : (memNext s).instr = s.ex.instr := by unfold memNext; split <;> rfl
@[simp] theorem memNext_regWrite (s : State) : (memNext s).regWrite = s.ex.regWrite := by
  unfold memNext; split <;> rfl
@[simp] theorem memNext_aluResult (s : State) : (memNext s).aluResult = s.ex.aluResult := by
  unfold memNext; split <;> rfl

/-- The cycle in which a failure is met changes `failed` only (R123, R138). -/
theorem finishCycle_cases (d : Decoded) (s : State) :
    (s.LoadInEx ∧ s.memory.dlen ≤ s.ex.aluResult.toNat ∧
      finishCycle d s = raise (.dataAddressOutOfImage s.ex.aluResult) s) ∨
    (s.MemoryStageReady ∧ ∃ f, d = .fails f ∧ finishCycle d s = raise f s) ∨
    (s.MemoryStageReady ∧ d = .stalls ∧ finishCycle d s = shiftStages (memNext s) .bubble s) ∨
    (s.MemoryStageReady ∧ ∃ ex' fr stop, d = .issues ex' fr stop ∧
      finishCycle d s = fetchStage s fr stop (shiftStages (memNext s) ex' s)) := by
  rcases memInput_cases s with ⟨hl, hd, h⟩ | ⟨hr, h⟩
  · exact .inl ⟨hl, hd, by simp [finishCycle, h]⟩
  · cases d with
    | fails f => exact .inr <| .inl ⟨hr, f, rfl, by simp [finishCycle, h]⟩
    | stalls => exact .inr <| .inr <| .inl ⟨hr, rfl, by simp [finishCycle, h]⟩
    | issues ex' fr stop => exact .inr <| .inr <| .inr ⟨hr, ex', fr, stop, rfl, by simp [finishCycle, h]⟩

/-- A known opcode resolves: the branch resolver's only failure is the unknown opcode (R89). -/
theorem resolveBranch_known {o : Opc} {f : Fields} (va vb : Word) (pc : Addr) (h : o.known f.opcode = true) :
    resolveBranch o f va vb pc =
      .ok (if taken o f va vb then .redirected f.imm else .sequential (pc + 1#12)) := by
  cases ht : taken o f va vb <;> simp [resolveBranch, h, ht]

/-- The decode stage (R117, R118): it fails or waits with its operands, or issues. -/
theorem decodeStage_eq (i : Instr) (rw' : Bool) (result : Word → Word) (stop : Bool) (ra rb : RegIdx) (s : State) :
    decodeStage i rw' result stop ra rb s =
      match readOperands s ra rb with
      | .fails f => .fails f
      | .stalls => .stalls
      | .ready va vb =>
        .issues
          { valid := true, instr := i.fields s.params.opc, regWrite := rw', aluResult := result va, memData := 0#32 }
          (if taken s.params.opc (i.fields s.params.opc) va vb then .redirected (i.fields s.params.opc).imm
            else .sequential (s.pc + 1#12)) stop := by
  cases h : readOperands s ra rb <;>
    simp [decodeStage, h, resolveBranch_known _ _ _ (Instr.known_fields _ _)]

/-- The `alu_result` an instruction issues with (R118). -/
def Instr.issueValue (s : State) : Instr → Word → Word
  | .addi _ _ _ imm, va => alu s.params .addi va imm
  | .subi _ _ _ imm, va => alu s.params .subi va imm
  | .lw _ _ _ imm, va => alu s.params .lw va imm
  | .jal _ _ _ _, _ => linkValue s.params s.ifid.ipc
  | .beq .., _ => 0#32
  | .blt .., _ => 0#32
  | .halt .., _ => 0#32

/-- Whether the instruction stops fetch (R120). -/
def Instr.stops : Instr → Bool
  | .halt .. => true
  | _ => false

/-- What decode does with `i`, whichever instruction it is. -/
def decodeOf (i : Instr) (s : State) : Decoded :=
  decodeStage i i.regWrite (Instr.issueValue s i) (Instr.stops i) i.portA i.portB s

/-- Every meaning is the cycle around `decodeOf`. -/
theorem exec_eq (i : Instr) (s : State) : exec i s = .next (finishCycle (decodeOf i s) s) := by
  cases i <;> rfl

/-- The operands of the instruction in decode, from its two queries (R77, R117). -/
theorem readOperands_cases (s : State) (ra rb : RegIdx) :
    (∃ f, (query s ra = .error f ∨ (∃ q, query s ra = .ok q) ∧ query s rb = .error f) ∧
      readOperands s ra rb = .fails f) ∨
    ((∃ q, query s ra = .ok q) ∧ (∃ q, query s rb = .ok q) ∧
      (query s ra = .ok .stallRequired ∨ query s rb = .ok .stallRequired) ∧ readOperands s ra rb = .stalls) ∨
    (∃ va vb, s.operandNow ra = some va ∧ s.operandNow rb = some vb ∧ readOperands s ra rb = .ready va vb) := by
  unfold readOperands State.operandNow
  cases ha : query s ra with
  | error f => exact .inl ⟨f, .inl rfl, by simp⟩
  | ok qa =>
    cases hb : query s rb with
    | error f => exact .inl ⟨f, .inr ⟨⟨qa, rfl⟩, rfl⟩, by simp⟩
    | ok qb =>
      right
      cases qa <;> cases qb <;> simp [operandValue]

theorem readOperands_ready {s : State} {ra rb : RegIdx} {va vb : Word} (ha : s.operandNow ra = some va)
    (hb : s.operandNow rb = some vb) : readOperands s ra rb = .ready va vb := by
  unfold State.operandNow at ha hb
  unfold readOperands
  split at ha
  · split at hb
    · simp_all
    · simp at hb
  · simp at ha

/-- An unused port is given index 0 and can neither stall nor fail (R69, R77). -/
@[simp] theorem operandNow_zero (s : State) : s.operandNow 0#4 = some 0#32 := by
  simp [State.operandNow, query, resolve, operandValue]

/-- The cases of a step. -/
theorem step_cases (s : State) :
    (∃ f, s.failed = some f ∧ step s = .fault f) ∨
    (s.failed = none ∧ s.halted = true ∧ step s = .next s) ∨
    (s.Live ∧ presented s = .nothing ∧ step s = .next (emptyCycle s)) ∨
    (s.Live ∧ ∃ a, presented s = .outOfImage a ∧ step s = .next (failingDecode (.fetchOutOfImage a) s)) ∨
    (s.Live ∧ ∃ op, presented s = .unknown op ∧ step s = .next (failingDecode (.encodingError op) s)) ∨
    (s.Live ∧ ∃ i, presented s = .instruction i ∧ step s = .next (finishCycle (decodeOf i s) s)) := by
  cases hf : s.failed with
  | some f => exact .inl ⟨f, rfl, by simp [step, hf]⟩
  | none =>
    right
    cases hh : s.halted
    · right
      cases hp : presented s with
      | nothing => exact .inl ⟨⟨hf, hh⟩, rfl, by simp [step, hf, hh, hp]⟩
      | outOfImage a => exact .inr <| .inl ⟨⟨hf, hh⟩, a, rfl, by simp [step, hf, hh, hp]⟩
      | unknown op => exact .inr <| .inr <| .inl ⟨⟨hf, hh⟩, op, rfl, by simp [step, hf, hh, hp]⟩
      | instruction i =>
        exact .inr <| .inr <| .inr ⟨⟨hf, hh⟩, i, rfl, by simp [step, hf, hh, hp, exec_eq]⟩
    · exact .inl ⟨rfl, rfl, by simp [step, hf, hh]⟩

/-- A step of a live core is a cycle around some `Decoded`. -/
theorem step_live {s : State} (h : s.Live) : ∃ d, step s = .next (finishCycle d s) := by
  rcases step_cases s with ⟨f, hf, -⟩ | ⟨-, hh, -⟩ | ⟨-, -, h'⟩ | ⟨-, a, -, h'⟩ | ⟨-, a, -, h'⟩ | ⟨-, i, -, h'⟩
  · simp [h.1] at hf
  · simp [h.2] at hh
  all_goals exact ⟨_, h'⟩

/-- No step is refused: every instruction has its meaning. -/
theorem step_not_refused (s : State) (r : Refusal) : step s ≠ .refused r := by
  rcases step_cases s with ⟨f, -, h⟩ | ⟨-, -, h⟩ | ⟨-, -, h⟩ | ⟨-, a, -, h⟩ | ⟨-, a, -, h⟩ | ⟨-, i, -, h⟩ <;>
    simp [h]

/-- No cycle changes the images or the model arguments (R33, R38). -/
theorem finishCycle_memory (d : Decoded) (s : State) : (finishCycle d s).memory = s.memory := by
  rcases finishCycle_cases d s with ⟨-, -, h⟩ | ⟨-, f, -, h⟩ | ⟨-, -, h⟩ | ⟨-, e, fr, st, -, h⟩ <;> simp [h]

theorem finishCycle_params (d : Decoded) (s : State) : (finishCycle d s).params = s.params := by
  rcases finishCycle_cases d s with ⟨-, -, h⟩ | ⟨-, f, -, h⟩ | ⟨-, -, h⟩ | ⟨-, e, fr, st, -, h⟩ <;> simp [h]

/-- The word the host loads is the next step's instruction. -/
theorem presented_withFetchWord (s : State) (n w : Nat) :
    presented (s.withFetchWord n w) =
      match decode s.params.opc (tableWord n w) with
      | .ok i => .instruction i
      | .error (.unknownOpcode op) => .unknown op := by
  rcases h : decode s.params.opc (tableWord n w) with ⟨⟨op⟩⟩ | i <;> simp [presented, h]

/-- `run` is the host's run on this machine. -/
theorem run_eq_host (n : Nat) (s : State) : run n s = Host.Core.run Sys2Proof.core n s := by
  induction n generalizing s with
  | zero => rfl
  | succ n ih =>
    simp only [run, Host.Core.run]
    generalize hg : Sys2Proof.core.step s = out
    rw [show step s = out from hg]
    cases out with
    | next t => exact ih t
    | fault f => rfl
    | refused r => rfl

end Sys2Proof.Machine
end

