-- ==== Sys2Proof/Laws/Cycle.lean ====
section
/-! SUPPORT. One cycle of a live core, case by case: what stands in decode, what the instruction in decode
does with its operands, what the older stages do whatever it does, and the four kinds of step. -/

namespace Sys2Proof.Machine

open Sys2Proof.Machine.State

/-! ### What stands in decode -/

theorem presented_instruction {s : State} {i : Instr} (h : presented s = .instruction i) :
    s.ifid.valid = true ∧ s.ifid.oob = false ∧ decode s.params.opc s.ifid.word = .ok i := by
  unfold presented at h
  split at h
  · split at h
    · cases h
    · split at h
      · cases h; simp_all
      · cases h
  · cases h

theorem presented_nothing {s : State} (h : presented s = .nothing) : s.ifid.valid = false := by
  unfold presented at h
  split at h
  · split at h
    · cases h
    · split at h <;> cases h
  · simp_all

theorem presented_outOfImage {s : State} {a : Addr} (h : presented s = .outOfImage a) :
    s.ifid.valid = true ∧ s.ifid.oob = true ∧ a = s.ifid.ipc := by
  unfold presented at h
  split at h
  · split at h
    · cases h; simp_all
    · split at h <;> cases h
  · cases h

theorem presented_unknown {s : State} {op : Opcode} (h : presented s = .unknown op) :
    s.ifid.valid = true ∧ s.ifid.oob = false ∧ decode s.params.opc s.ifid.word = .error (.unknownOpcode op) := by
  unfold presented at h
  split at h
  · split at h
    · cases h
    · split at h
      · cases h
      · cases h; simp_all
  · cases h

/-- The fetch stage latches the word at `pc` (R121). -/
theorem fetchedWord_eq (s : State) : fetchedWord s = s.wordAtPc := by
  unfold fetchedWord imemRead wordAtPc Memory.plen
  by_cases h : s.pc.toNat < s.memory.imem.length <;> simp [h, List.getD]

@[simp] theorem wordAtPc_valid (s : State) : s.wordAtPc.valid = true := by unfold wordAtPc; split <;> rfl
@[simp] theorem wordAtPc_ipc (s : State) : s.wordAtPc.ipc = s.pc := by unfold wordAtPc; split <;> rfl

/-! ### The instruction in decode -/

/-- The `FetchRedirect` of a known instruction with its operands (R89). -/
def redirectOf (s : State) (i : Instr) (va vb : Word) : FetchRedirect :=
  if taken s.params.opc (i.fields s.params.opc) va vb then .redirected (i.fields s.params.opc).imm
  else .sequential (s.pc + 1#12)

/-- The stage register an instruction issues into `EX` (R118). -/
def issuedStage (s : State) (i : Instr) (va : Word) : Stage :=
  { valid := true, instr := i.fields s.params.opc, regWrite := i.regWrite
    aluResult := Instr.issueValue s i va, memData := 0#32 }

theorem decodeOf_ready {i : Instr} {s : State} {va vb : Word}
    (h : readOperands s i.portA i.portB = .ready va vb) :
    decodeOf i s = .issues (issuedStage s i va) (redirectOf s i va vb) (Instr.stops i) := by
  rw [decodeOf, decodeStage_eq, h]; rfl

theorem decodeOf_fails {i : Instr} {s : State} {f : Fault} (h : readOperands s i.portA i.portB = .fails f) :
    decodeOf i s = .fails f := by rw [decodeOf, decodeStage_eq, h]

theorem decodeOf_stalls {i : Instr} {s : State} (h : readOperands s i.portA i.portB = .stalls) :
    decodeOf i s = .stalls := by rw [decodeOf, decodeStage_eq, h]

theorem redirectNow_ready {i : Instr} {s : State} {va vb : Word} (hp : presented s = .instruction i)
    (h : readOperands s i.portA i.portB = .ready va vb) : s.redirectNow = redirectOf s i va vb := by
  simp [redirectNow, hp, h, resolveBranch_known _ _ _ (Instr.known_fields _ _), redirectOf]

/-- A meaning whose operands are ready, in a cycle in which no load fails: the instruction issues. -/
theorem exec_ready {i : Instr} {s : State} {va vb : Word} (hm : s.MemoryStageReady)
    (ha : s.operandNow i.portA = some va) (hb : s.operandNow i.portB = some vb) :
    exec i s = .next (fetchStage s (redirectOf s i va vb) (Instr.stops i)
      (shiftStages (memNext s) (issuedStage s i va) s)) := by
  rw [exec_eq, decodeOf_ready (readOperands_ready ha hb)]
  simp [finishCycle, memInput_of_ready hm]

/-- The fetch side of an issuing cycle, in the words of the statements. -/
theorem fetchSide_issue (s : State) (fr : FetchRedirect) (stop : Bool) (m e : Stage) :
    FetchSide s (fetchStage s fr stop (shiftStages m e s)) fr stop := by
  unfold FetchSide
  cases h : s.fetchStop <;> cases stop <;> cases fr <;>
    simp [h, fetchedWord_eq, FetchRedirect.addr, FetchRedirect.state]

/-- A query stalls on a load in `EX` only (R71). -/
theorem query_stall {s : State} {r : RegIdx} (h : query s r = .ok .stallRequired) :
    stageHit s.params.opc r s.ex = true ∧ s.LoadInEx := by
  unfold query at h
  rcases resolve_cases s.params.opc r s.ex s.mem s.wb s.lcr with ⟨-, b⟩ | ⟨a, l, b⟩ | ⟨-, -, b⟩ | ⟨-, -, b⟩ |
    ⟨-, -, -, -, b⟩ | ⟨-, -, -, -, b⟩ | ⟨-, -, -, -, -, b⟩ <;> rw [b] at h <;> cases h
  exact ⟨a, (stageHit_iff.1 a).1, l⟩

/-- An instruction that waits stands in decode behind a load in `EX`. -/
theorem waits_load {s : State} (h : s.Waits) : s.ifid.valid = true ∧ s.LoadInEx := by
  obtain ⟨i, hp, hst⟩ := h
  refine ⟨(presented_instruction hp).1, ?_⟩
  rcases readOperands_cases s i.portA i.portB with ⟨f, -, h⟩ | ⟨-, -, h3, h⟩ | ⟨va, vb, -, -, h⟩
  · simp [h] at hst
  · rcases h3 with h3 | h3 <;> exact (query_stall h3).2
  · simp [h] at hst

/-- Under `P_LCR` no query fails (R23, R74). -/
theorem query_ok_of_pLcr {s : State} (h : s.PLcr) (r : RegIdx) (f : Fault) : query s r ≠ .error f := by
  intro hq
  unfold query at hq
  rcases resolve_cases s.params.opc r s.ex s.mem s.wb s.lcr with ⟨-, b⟩ | ⟨-, -, b⟩ | ⟨-, -, b⟩ | ⟨-, -, b⟩ |
    ⟨-, -, -, n, b⟩ | ⟨-, -, -, -, b⟩ | ⟨-, -, -, -, -, b⟩ <;> rw [b] at hq <;> cases hq
  simp only [wbBad, Bool.and_eq_true, bne_iff_ne] at n
  exact n.2 (h n.1.1 n.1.2)

/-! ### The older stages -/

/-- What write-back does (R112): it commits one register and records it, or nothing. -/
theorem commit_cases (s : State) :
    let d := effectiveDestination s.params.opc s.wb.instr
    let v := stageValue s.params.opc s.wb
    ((s.wb.valid = true ∧ s.wb.regWrite = true ∧ d ≠ 0#4) ∧ committedRegs s = writeReg s.x d v ∧
      commitEvents s = [.commit s.cycle d v]) ∨
    (¬ (s.wb.valid = true ∧ s.wb.regWrite = true ∧ d ≠ 0#4) ∧ committedRegs s = s.x ∧ commitEvents s = []) := by
  intro d v
  by_cases h : s.wb.valid = true ∧ s.wb.regWrite = true ∧ d ≠ 0#4
  · left
    have hc : commitOf s = some (d, v) := by
      unfold commitOf
      rw [if_pos]
      · rfl
      · simp only [Bool.and_eq_true, bne_iff_ne, and_assoc]; exact h
    exact ⟨h, by simp [committedRegs, hc], by simp [commitEvents, hc]⟩
  · right
    have hc : commitOf s = none := by
      unfold commitOf
      rw [if_neg]
      simp only [Bool.and_eq_true, bne_iff_ne, and_assoc]; exact h
    exact ⟨h, by simp [committedRegs, hc], by simp [commitEvents, hc]⟩

theorem committedRegs_entry_zero (s : State) : (committedRegs s)[0] = s.x[0] := by
  rcases commit_cases s with ⟨-, b, -⟩ | ⟨-, b, -⟩
  · simp only [b, writeReg_entry_zero]
  · simp only [b]

theorem nextLcr_eq (s : State) :
    nextLcr s = if s.mem.valid = true ∧ s.mem.regWrite = true then
      effectiveDestination s.params.opc s.mem.instr else 0#4 := by
  simp [nextLcr]

theorem memNext_bubble {s : State} (h : s.ex = .bubble) : memNext s = .bubble := by
  simp [memNext, h, Stage.bubble]

@[simp] theorem commitsOf_append (a b : List Event) : commitsOf (a ++ b) = commitsOf a ++ commitsOf b := by
  induction a with
  | nil => rfl
  | cons e es ih => cases e <;> simp [commitsOf, ih]

@[simp] theorem commitsOf_redirectEvents (c : Nat) (fr : FetchRedirect) : commitsOf (redirectEvents c fr) = [] := by
  cases fr <;> rfl

/-! ### The kinds of step -/

/-- Where the failure of a failing cycle comes from (R119, R123). -/
inductive FailureSource (s : State) : Fault → Prop where
  | load : s.LoadInEx → s.memory.dlen ≤ s.ex.aluResult.toNat →
      FailureSource s (.dataAddressOutOfImage s.ex.aluResult)
  | fetch : s.MemoryStageReady → presented s = .outOfImage s.ifid.ipc →
      FailureSource s (.fetchOutOfImage s.ifid.ipc)
  | opcode (op : Opcode) : s.MemoryStageReady → presented s = .unknown op → FailureSource s (.encodingError op)
  | query (i : Instr) (r : RegIdx) (f : Fault) : s.MemoryStageReady → presented s = .instruction i →
      Machine.query s r = .error f → FailureSource s f

/-- A step of a live core fails, waits, finds nothing in decode, or issues the instruction in decode. -/
inductive StepKind (s : State) : State → Prop where
  | fails (f : Fault) : FailureSource s f → StepKind s (raise f s)
  | waits : s.MemoryStageReady → s.Waits → StepKind s (shiftStages (memNext s) .bubble s)
  | empty : s.MemoryStageReady → presented s = .nothing →
      StepKind s (fetchStage s (sequentialNext s) false (shiftStages (memNext s) .bubble s))
  | issues (i : Instr) (va vb : Word) : s.MemoryStageReady → presented s = .instruction i →
      s.operandNow i.portA = some va → s.operandNow i.portB = some vb →
      StepKind s (fetchStage s (redirectOf s i va vb) (Instr.stops i)
        (shiftStages (memNext s) (issuedStage s i va) s))

theorem finishCycle_kind_fails {s : State} (f : Fault) (h : s.MemoryStageReady → FailureSource s f) :
    StepKind s (finishCycle (.fails f) s) := by
  rcases finishCycle_cases (.fails f) s with ⟨hl, hd, h'⟩ | ⟨hr, g, hg, h'⟩ | ⟨-, hc, -⟩ | ⟨-, e, fr, st, hc, -⟩
  · rw [h']; exact .fails _ (.load hl hd)
  · rw [h']; cases hg; exact .fails _ (h hr)
  · cases hc
  · cases hc

/-- A step of a live core is one of the four kinds. -/
theorem step_kind {s t : State} (hl : s.Live) (hs : step s = .next t) : StepKind s t := by
  rcases step_cases s with ⟨g, hg, -⟩ | ⟨-, hh, -⟩ | ⟨-, h0, h'⟩ | ⟨-, a, h0, h'⟩ | ⟨-, a, h0, h'⟩ | ⟨-, i, h0, h'⟩
  · simp [hl.1] at hg
  · simp [hl.2] at hh
  · rw [h'] at hs
    cases hs
    unfold emptyCycle
    rcases finishCycle_cases (.issues .bubble (sequentialNext s) false) s with
      ⟨hl, hd, h'⟩ | ⟨-, g, hc, -⟩ | ⟨-, hc, -⟩ | ⟨hr, e, fr, st, hc, h'⟩
    · rw [h']; exact .fails _ (.load hl hd)
    · cases hc
    · cases hc
    · cases hc; rw [h']; exact .empty hr h0
  · rw [h'] at hs
    cases hs
    obtain ⟨-, -, rfl⟩ := presented_outOfImage h0
    exact finishCycle_kind_fails _ fun hr => .fetch hr h0
  · rw [h'] at hs
    cases hs
    exact finishCycle_kind_fails _ fun hr => .opcode _ hr h0
  · rw [h'] at hs
    cases hs
    rcases readOperands_cases s i.portA i.portB with ⟨f, hq, h⟩ | ⟨-, -, -, h⟩ | ⟨va, vb, ha, hb, h⟩
    · rw [decodeOf_fails h]
      refine finishCycle_kind_fails _ fun hr => ?_
      rcases hq with hq | hq
      · exact .query i _ f hr h0 hq
      · exact .query i _ f hr h0 hq.2
    · rw [decodeOf_stalls h]
      rcases finishCycle_cases .stalls s with ⟨hl, hd, h'⟩ | ⟨-, g, hc, -⟩ | ⟨hr, -, h'⟩ | ⟨-, e, fr, st, hc, -⟩
      · rw [h']; exact .fails _ (.load hl hd)
      · cases hc
      · rw [h']; exact .waits hr ⟨i, h0, h⟩
      · cases hc
    · rw [decodeOf_ready h]
      rcases finishCycle_cases (.issues (issuedStage s i va) (redirectOf s i va vb) (Instr.stops i)) s with
        ⟨hl, hd, h'⟩ | ⟨-, g, hc, -⟩ | ⟨-, hc, -⟩ | ⟨hr, e, fr, st, hc, h'⟩
      · rw [h']; exact .fails _ (.load hl hd)
      · cases hc
      · cases hc
      · cases hc; rw [h']; exact .issues i va vb hr h0 ha hb

/-- A step that answers a next state stays, on a halted core, or is a cycle of a live core. -/
theorem step_next {s t : State} (h : step s = .next t) :
    (s.failed = none ∧ s.halted = true ∧ t = s) ∨ (s.Live ∧ StepKind s t) := by
  rcases step_cases s with ⟨g, hg, h'⟩ | ⟨hf, hh, h'⟩ | ⟨hl, -⟩ | ⟨hl, -⟩ | ⟨hl, -⟩ | ⟨hl, -⟩
  · rw [h'] at h; cases h
  · rw [h'] at h; cases h; exact .inl ⟨hf, hh, rfl⟩
  all_goals exact .inr ⟨hl, step_kind hl h⟩

/-- A step answers a fault on a core that has failed, and only there (R138). -/
theorem step_fault_iff {s : State} {f : Fault} : step s = .fault f ↔ s.failed = some f := by
  constructor
  · intro h
    rcases step_cases s with ⟨g, hg, h'⟩ | ⟨-, -, h'⟩ | ⟨-, -, h'⟩ | ⟨-, a, -, h'⟩ | ⟨-, a, -, h'⟩ | ⟨-, i, -, h'⟩ <;>
      rw [h'] at h <;> cases h
    exact hg
  · intro h; simp [step, h]

/-- A live core always answers a next state. -/
theorem step_live_next {s : State} (h : s.Live) : ∃ t, step s = .next t ∧ StepKind s t := by
  obtain ⟨d, hd⟩ := step_live h
  exact ⟨_, hd, step_kind h hd⟩

/-- What the stages older than decode do in a cycle that does not fail, whatever stands in decode. -/
theorem StepKind.older {s t : State} (h : StepKind s t) (hf : t.failed = none) :
    s.MemoryStageReady ∧ t.x = committedRegs s ∧ t.halted = haltCommits s ∧ t.wb = s.mem ∧
    t.lcr = nextLcr s ∧ t.mem = memNext s ∧ t.cycle = s.cycle + 1 ∧ t.memory = s.memory ∧
    t.params = s.params ∧ ∃ rest, t.events = s.events ++ commitEvents s ++ rest ∧ commitsOf rest = [] := by
  cases h with
  | fails f _ => simp at hf
  | waits hr _ => exact ⟨hr, rfl, rfl, rfl, rfl, rfl, rfl, rfl, rfl, [], by simp, rfl⟩
  | empty hr _ =>
    exact ⟨hr, rfl, rfl, rfl, rfl, rfl, rfl, rfl, rfl, _, rfl, by simp; split <;> simp [commitsOf]⟩
  | issues i va vb hr _ _ _ =>
    exact ⟨hr, rfl, rfl, rfl, rfl, rfl, rfl, rfl, rfl, _, rfl, by simp; split <;> simp [commitsOf]⟩

/-! ### Several cycles -/

theorem run_succ_next {n : Nat} {s t : State} :
    run (n + 1) s = .next t ↔ ∃ u, step s = .next u ∧ run n u = .next t := by
  rw [run]
  cases step s <;> simp

theorem run_succ_fault {n : Nat} {s : State} {f : Fault} :
    run (n + 1) s = .fault f ↔ step s = .fault f ∨ ∃ u, step s = .next u ∧ run n u = .fault f := by
  rw [run]
  cases step s <;> simp

theorem run_add {m n : Nat} {s t : State} (h : run m s = .next t) : run (m + n) s = run n t := by
  induction m generalizing s with
  | zero => cases h; simp
  | succ m ih =>
    obtain ⟨u, hu, ht⟩ := run_succ_next.1 h
    rw [Nat.add_right_comm, run, hu]
    exact ih ht

/-- The instruction in `EX` of `t` is in `WB` of `u` two cycles later, with its loaded word if it is a load. -/
theorem State.RetiresInto.inWb {t u w : State} (h : RetiresInto t u w) :
    t.Live ∧ t.MemoryStageReady ∧ u.Live ∧ u.wb = memNext t ∧ u.params = t.params := by
  obtain ⟨h1, h2, h3, h4⟩ := h
  obtain ⟨t1, hs0, h1⟩ := run_succ_next.1 h1
  obtain ⟨u', hs1, h1⟩ := run_succ_next.1 h1
  cases h1
  have hu : u.failed = none := by
    rcases step_next h3 with ⟨h, -, -⟩ | ⟨h, -⟩
    · exact h
    · exact h.1
  rcases step_next hs1 with ⟨-, hh, rfl⟩ | ⟨hl1, hk1⟩
  · simp [h2] at hh
  rcases step_next hs0 with ⟨-, hh, rfl⟩ | ⟨hl0, hk0⟩
  · simp [hl1.2] at hh
  obtain ⟨hr, -, -, -, -, hm, -, -, hp0, -⟩ := hk0.older hl1.1
  obtain ⟨-, -, -, hw, -, -, -, -, hp1, -⟩ := hk1.older hu
  exact ⟨hl0, hr, ⟨hu, h2⟩, hw.trans hm, hp1.trans hp0⟩

end Sys2Proof.Machine
end

