-- ==== Sys2Proof/Laws/PerInstr.lean ====
section
/-! SUPPORT. A statement about every instruction as syntax, one lemma per constructor: the decoder's columns
of R55, read from the opcode number of its encoding, are those of the instruction. -/

namespace Sys2Proof.Laws

namespace DecoderColumns

/-- Under an injective opcode map the write intent, the requested registers and the classes (R51, R55),
computed from the opcode number the instruction is encoded with, are the instruction's own. -/
def Statement (i : Instr) : Prop :=
  ∀ o : Opc, o.wf = true →
    (i.fields o).wf o = true ∧
    o.writesReg (i.fields o).opcode = i.regWrite ∧
    (if o.readsRs (i.fields o).opcode then (i.fields o).rs else 0#4) = i.portA ∧
    (if o.readsRt (i.fields o).opcode then (i.fields o).rt else 0#4) = i.portB ∧
    o.isHalt (i.fields o).opcode = Sys2Proof.Machine.Instr.stops i

end DecoderColumns

namespace DecoderColumns

theorem addi (rd rs rt : RegIdx) (imm : Imm) : Statement (.addi rd rs rt imm) := by
  intro o h
  obtain ⟨⟨_, _, _, _, _, _⟩, _, _, _, _, _⟩ := Opc.distinct h
  simp [Fields.wf, Opc.numbers, Instr.fields, Opc.writesReg, Opc.readsRs, Opc.readsRt, Opc.isHalt,
    Instr.regWrite, Instr.portA, Instr.portB, Sys2Proof.Machine.Instr.stops, *]

theorem subi (rd rs rt : RegIdx) (imm : Imm) : Statement (.subi rd rs rt imm) := by
  intro o h
  obtain ⟨_, ⟨_, _, _, _, _⟩, _, _, _, _⟩ := Opc.distinct h
  simp [Fields.wf, Opc.numbers, Instr.fields, Opc.writesReg, Opc.readsRs, Opc.readsRt, Opc.isHalt,
    Instr.regWrite, Instr.portA, Instr.portB, Sys2Proof.Machine.Instr.stops, *]

theorem lw (rd rs rt : RegIdx) (imm : Imm) : Statement (.lw rd rs rt imm) := by
  intro o h
  obtain ⟨_, _, ⟨_, _, _, _⟩, _, _, _⟩ := Opc.distinct h
  simp [Fields.wf, Opc.numbers, Instr.fields, Opc.writesReg, Opc.readsRs, Opc.readsRt, Opc.isHalt,
    Instr.regWrite, Instr.portA, Instr.portB, Sys2Proof.Machine.Instr.stops, *]

theorem beq (rd rs rt : RegIdx) (imm : Imm) : Statement (.beq rd rs rt imm) := by
  intro o h
  obtain ⟨⟨_, _, h1, _, _, _⟩, ⟨_, h2, _, _, _⟩, ⟨h3, _, _, _⟩, ⟨_, h4, _⟩, _, _⟩ := Opc.distinct h
  simp [Fields.wf, Opc.numbers, Instr.fields, Opc.writesReg, Opc.readsRs, Opc.readsRt, Opc.isHalt,
    Instr.regWrite, Instr.portA, Instr.portB, Sys2Proof.Machine.Instr.stops, h1.symm, h2.symm, h3.symm, *]

theorem blt (rd rs rt : RegIdx) (imm : Imm) : Statement (.blt rd rs rt imm) := by
  intro o h
  obtain ⟨⟨_, _, _, h1, _, _⟩, ⟨_, _, h2, _, _⟩, ⟨_, h3, _, _⟩, _, ⟨h4, _⟩, _⟩ := Opc.distinct h
  simp [Fields.wf, Opc.numbers, Instr.fields, Opc.writesReg, Opc.readsRs, Opc.readsRt, Opc.isHalt,
    Instr.regWrite, Instr.portA, Instr.portB, Sys2Proof.Machine.Instr.stops, h1.symm, h2.symm, h3.symm, *]

theorem jal (rd rs rt : RegIdx) (imm : Imm) : Statement (.jal rd rs rt imm) := by
  intro o h
  obtain ⟨⟨_, _, _, _, h1, _⟩, ⟨_, _, _, h2, _⟩, ⟨_, _, h3, _⟩, ⟨_, h4, _⟩, ⟨h5, _⟩, _⟩ := Opc.distinct h
  simp [Fields.wf, Opc.numbers, Instr.fields, Opc.writesReg, Opc.readsRs, Opc.readsRt, Opc.isHalt,
    Instr.regWrite, Instr.portA, Instr.portB, Sys2Proof.Machine.Instr.stops, h1.symm, h2.symm, h3.symm, h4.symm,
    h5.symm, *]

theorem halt (rd rs rt : RegIdx) (imm : Imm) : Statement (.halt rd rs rt imm) := by
  intro o h
  obtain ⟨⟨_, _, _, _, _, h1⟩, ⟨_, _, _, _, h2⟩, ⟨_, _, _, h3⟩, ⟨_, _, h4⟩, ⟨_, h5⟩, h6⟩ := Opc.distinct h
  simp [Fields.wf, Opc.numbers, Instr.fields, Opc.writesReg, Opc.readsRs, Opc.readsRt, Opc.isHalt,
    Instr.regWrite, Instr.portA, Instr.portB, Sys2Proof.Machine.Instr.stops, h1.symm, h2.symm, h3.symm, h4.symm,
    h5.symm, h6.symm, *]

end DecoderColumns

end Sys2Proof.Laws
end

