-- ==== Sys2Proof/Laws/Simulation.lean ====
section
/-! SUPPORT. The pipeline against the instruction-level view (R126, R127), step by step: the register file with
every instruction in flight committed, an operand is a register of it, and each step of a core either ends
the run as the view's next step does, or keeps the view where it is, or takes the view's next step. -/

namespace Sys2Proof.Machine

open Sys2Proof.Machine.State

/-! ### The instructions in flight -/

/-- The register file after the instruction in a stage has committed (R112). -/
def commitStage (o : Opc) (x : Vector Word 16) (st : Stage) : Vector Word 16 :=
  if st.valid = true ∧ st.regWrite = true then writeReg x (effectiveDestination o st.instr) (stageValue o st)
  else x

/-- The register writes of the instruction in a stage that are not discarded (R112, R127). -/
def stageWrites (o : Opc) (st : Stage) : List (RegIdx × Word) :=
  if st.valid = true ∧ st.regWrite = true ∧ effectiveDestination o st.instr ≠ 0#4 then
    [(effectiveDestination o st.instr, stageValue o st)]
  else []

/-- The register file once every instruction in flight has committed, when no load in `EX` fails. -/
def State.regsAhead (s : State) : Vector Word 16 :=
  let o := s.params.opc
  commitStage o (commitStage o (commitStage o s.x s.wb) s.mem) (memNext s)

/-- The register writes of the run, those of the instructions in flight included. -/
def State.writesAhead (s : State) : List (RegIdx × Word) :=
  let o := s.params.opc
  commitsOf s.events ++ stageWrites o s.wb ++ stageWrites o s.mem ++ stageWrites o (memNext s)

theorem commitStage_idle {o : Opc} {x : Vector Word 16} {st : Stage} (h : ¬ (st.valid = true ∧ st.regWrite = true)) :
    commitStage o x st = x := if_neg h

theorem stageWrites_idle {o : Opc} {st : Stage} (h : ¬ (st.valid = true ∧ st.regWrite = true)) :
    stageWrites o st = [] := if_neg fun h' => h ⟨h'.1, h'.2.1⟩

@[simp] theorem commitStage_bubble (o : Opc) (x : Vector Word 16) : commitStage o x .bubble = x := rfl
@[simp] theorem stageWrites_bubble (o : Opc) : stageWrites o .bubble = [] := rfl

theorem readReg_commitStage (o : Opc) (x : Vector Word 16) (st : Stage) (r : RegIdx) :
    readReg (commitStage o x st) r = if stageHit o r st = true then stageValue o st else readReg x r := by
  unfold commitStage
  split
  · rename_i h
    have hi : stageHit o r st = true ↔ effectiveDestination o st.instr = r ∧ effectiveDestination o st.instr ≠ 0#4 := by
      rw [stageHit_iff]
      constructor
      · rintro ⟨-, -, rfl, h4⟩; exact ⟨rfl, h4⟩
      · rintro ⟨rfl, h4⟩; exact ⟨h.1, h.2, rfl, h4⟩
    simp only [readReg_writeReg, hi]
  · rename_i h
    rw [if_neg]
    rw [stageHit_iff]
    exact fun h' => h ⟨h'.1, h'.2.1⟩

theorem committedRegs_eq (s : State) : committedRegs s = commitStage s.params.opc s.x s.wb := by
  unfold commitStage
  rcases commit_cases s with ⟨a, b, -⟩ | ⟨a, b, -⟩
  · rw [b, if_pos ⟨a.1, a.2.1⟩]
  · rw [b]
    split
    · rename_i h
      have h0 : effectiveDestination s.params.opc s.wb.instr = 0#4 := by
        by_contra hc
        exact a ⟨h.1, h.2, hc⟩
      simp [h0]
    · rfl

theorem commitsOf_commitEvents (s : State) : commitsOf (commitEvents s) = stageWrites s.params.opc s.wb := by
  unfold stageWrites
  rcases commit_cases s with ⟨a, -, c⟩ | ⟨a, -, c⟩
  · rw [c, if_pos a]; rfl
  · rw [c, if_neg a]; rfl

theorem stageHit_memNext (s : State) (r : RegIdx) :
    stageHit s.params.opc r (memNext s) = stageHit s.params.opc r s.ex := by
  simp [stageHit]

/-- The operand the instruction in decode gets is the register with every instruction in flight committed
(R75, R82, R153): forwarding and the register file together are the sequential register file. -/
theorem operandNow_eq {s : State} (hl : s.PLcr) {r : RegIdx} {v : Word} (h : s.operandNow r = some v) :
    v = readReg s.regsAhead r := by
  unfold State.operandNow query at h
  simp only [State.regsAhead, readReg_commitStage, stageHit_memNext]
  rcases resolve_cases s.params.opc r s.ex s.mem s.wb s.lcr with ⟨a, b⟩ | ⟨-, -, b⟩ | ⟨a, n, b⟩ | ⟨a, m, b⟩ |
    ⟨-, -, -, -, b⟩ | ⟨a, m, n, p, b⟩ | ⟨-, a, m, n, p, b⟩ <;> rw [b] at h <;> simp [operandValue] at h
  · subst a; subst h; simp
  · subst h; simp [a, stageValue, n]
  · subst h; simp [a, m]
  · subst h
    obtain ⟨h1, h2, h3, h4⟩ := wbHit_iff.1 p
    have hw : stageHit s.params.opc r s.wb = true := stageHit_iff.2 ⟨h1, h2, (hl h1 h2).symm.trans h3, h4⟩
    simp [a, m, hw]
  · subst h
    have hw : stageHit s.params.opc r s.wb = false := by
      rw [Bool.eq_false_iff, ne_eq, stageHit_iff]
      rintro ⟨h1, h2, h3, h4⟩
      rw [Bool.eq_false_iff, ne_eq, wbHit_iff] at p
      exact p ⟨h1, h2, (hl h1 h2).trans h3, h4⟩
    simp [a, m, hw]

/-! ### The relation -/

/-- A running core `s` stands where the view `v` stands: `v` has executed every instruction that has left
decode, but a load in `EX` whose address is out of the image, which is the instruction at `cur`. -/
structure Sim (l : Launch) (s : State) (v : View) : Prop where
  live : s.Live
  inv : s.Inv
  images : s.memory = l.memory ∧ s.params = l.params
  /-- Behind a `HALT` there are bubbles only (R120). -/
  drained : (s.HoldsHalt s.mem → s.ex.valid = false) ∧
    (s.HoldsHalt s.wb → s.ex.valid = false ∧ s.mem.valid = false)
  failing : ¬ s.MemoryStageReady → viewStep l v = .raised (.dataAddressOutOfImage s.ex.aluResult) v
  regs : s.MemoryStageReady → v.x = s.regsAhead ∧ v.writes = s.writesAhead
  addrs : s.MemoryStageReady → s.fetchStop = false →
    v.cur = (if s.ifid.valid then s.ifid.ipc else s.pc) ∧ v.nxt = (if s.ifid.valid then s.pc else s.pc + 1#12)
  stopped : s.MemoryStageReady → s.fetchStop = true → viewStep l v = .stopped v

/-- How many steps at most a core makes before the view makes its next one. -/
def State.lag (s : State) : Nat :=
  if s.ex.valid = true ∧ s.params.opc.isLoad s.ex.instr.opcode = true ∧ s.memory.dlen ≤ s.ex.aluResult.toNat then 0
  else if s.fetchStop then
    (if s.HoldsHalt s.ex then 3 else if s.HoldsHalt s.mem then 2 else 1)
  else 4 + (if s.ifid.valid then 0 else 2) + (if s.waitsNow then 1 else 0)

theorem lag_of_ready {s : State} (h : s.MemoryStageReady) :
    s.lag = if s.fetchStop then (if s.HoldsHalt s.ex then 3 else if s.HoldsHalt s.mem then 2 else 1)
      else 4 + (if s.ifid.valid then 0 else 2) + (if s.waitsNow then 1 else 0) :=
  if_neg fun h' => absurd (h ⟨h'.1, h'.2.1⟩) (Nat.not_lt.2 h'.2.2)

theorem lag_of_not_ready {s : State} (h : ¬ s.MemoryStageReady) : s.lag = 0 := by
  unfold State.MemoryStageReady at h
  push Not at h
  exact if_pos ⟨h.1.1, h.1.2, h.2⟩

theorem waitsNow_iff {s : State} : s.waitsNow = true ↔ s.Waits := by
  unfold State.waitsNow State.Waits
  cases presented s <;> simp

/-- With a bubble in `EX` nothing waits. -/
theorem waitsNow_bubble {s : State} (h : s.ex.valid = false) : s.waitsNow = false := by
  rw [Bool.eq_false_iff, ne_eq, waitsNow_iff]
  exact fun hw => by have := (waits_load hw).2.1; simp [h] at this

theorem ready_of_bubble {s : State} (h : s.ex.valid = false) : s.MemoryStageReady :=
  fun h' => absurd h'.1 (by simp [h])

/-- What a step of the core is for the view: the end of both runs, a step of the core alone, or a step of both. -/
inductive StepSim (l : Launch) (s : State) (v : View) (t : State) : Prop where
  | fails (f : Fault) : t.failed = some f → viewStep l v = .raised f v → StepSim l s v t
  | halts : t.NormalEnd → viewStep l v = .stopped v → t.x = v.x → commitsOf t.events = v.writes → StepSim l s v t
  | alone : Sim l t v → t.lag < s.lag → StepSim l s v t
  | both (v' : View) : viewStep l v = .next v' → Sim l t v' → StepSim l s v t

/-- A launched core stands where the view starts. -/
theorem sim_launch {l : Launch} (h : (State.launch l).Inv) : Sim l (State.launch l) View.start where
  live := ⟨rfl, rfl⟩
  inv := h
  images := ⟨rfl, rfl⟩
  drained := ⟨fun _ => rfl, fun _ => ⟨rfl, rfl⟩⟩
  failing hn := absurd (ready_of_bubble (s := State.launch l) rfl) hn
  regs _ := ⟨rfl, rfl⟩
  addrs _ _ := ⟨rfl, rfl⟩
  stopped _ hc := absurd hc Bool.false_ne_true

/-! ### One step -/

/-- A cycle that does not fail moves every instruction on and adds the one now in `EX` (R112 to R115). -/
theorem StepKind.ahead {s t : State} (h : StepKind s t) (hf : t.failed = none) :
    t.regsAhead = commitStage s.params.opc s.regsAhead (memNext t) ∧
    t.writesAhead = s.writesAhead ++ stageWrites s.params.opc (memNext t) := by
  obtain ⟨-, hx, -, hw, -, hm, -, -, hp, rest, he, hr⟩ := h.older hf
  unfold State.regsAhead State.writesAhead
  simp [hx, hw, hm, hp, he, hr, committedRegs_eq, commitsOf_commitEvents]

/-- Nothing is in decode once fetch has stopped, so `EX` takes a bubble (R120). -/
theorem StepKind.stopped {s t : State} (h : StepKind s t) (hi : s.Inv) (hf : t.failed = none)
    (hst : s.fetchStop = true) : t.ex = .bubble ∧ t.fetchStop = true := by
  have hv := (hi.stopped hst).1
  cases h with
  | fails f _ => simp at hf
  | waits _ hw => simp [(waits_load hw).1] at hv
  | empty _ _ => simp [hst]
  | issues i va vb _ hp _ _ => simp [(presented_instruction hp).1] at hv

/-- Behind a `HALT` there are bubbles only, in the next state too. -/
theorem Sim.drained_next {l : Launch} {s t : State} {v : View} (h : Sim l s v) (hk : StepKind s t)
    (hf : t.failed = none) :
    (t.HoldsHalt t.mem → t.ex.valid = false) ∧ (t.HoldsHalt t.wb → t.ex.valid = false ∧ t.mem.valid = false) := by
  obtain ⟨-, -, -, hw, -, hm, -, -, hp, -⟩ := hk.older hf
  have hst : ∀ st, s.HoldsHalt st → st ∈ [s.ex, s.mem, s.wb] → t.ex.valid = false := by
    intro st hh hmem
    have : s.fetchStop = true := h.inv.halting (by
      simp only [List.mem_cons, List.not_mem_nil, or_false] at hmem
      rcases hmem with rfl | rfl | rfl
      · exact .inl hh
      · exact .inr (.inl hh)
      · exact .inr (.inr (.inl hh)))
    rw [(hk.stopped h.inv hf this).1]; rfl
  refine ⟨fun hh => hst s.ex ?_ (by simp), fun hh => ?_⟩
  · simpa [State.HoldsHalt, hm, hp] using hh
  · have hh' : s.HoldsHalt s.mem := by simpa [State.HoldsHalt, hw, hp] using hh
    exact ⟨hst s.mem hh' (by simp), by rw [hm]; simpa using h.drained.1 hh'⟩

/-- The cycle in which a `HALT` is in `WB` ends both runs (R105, R112). -/
theorem Sim.halts {l : Launch} {s t : State} {v : View} (h : Sim l s v) (hk : StepKind s t)
    (hf : t.failed = none) (hh : t.halted = true) : StepSim l s v t := by
  obtain ⟨hr, hx, hha, -, -, -, -, -, -, rest, he, hrest⟩ := hk.older hf
  have hw : s.HoldsHalt s.wb := by
    rw [hha] at hh
    simpa [haltCommits, State.HoldsHalt] using hh
  obtain ⟨hex, hmem⟩ := h.drained.2 hw
  have hst := h.inv.halting (.inr (.inr (.inl hw)))
  obtain ⟨hvx, hvw⟩ := h.regs hr
  have h1 : ¬ ((memNext s).valid = true ∧ (memNext s).regWrite = true) := by simp [hex]
  have h2 : ¬ (s.mem.valid = true ∧ s.mem.regWrite = true) := by simp [hmem]
  refine .halts ⟨hh, hf⟩ (h.stopped hr hst) ?_ ?_
  · simp only [hvx, State.regsAhead, commitStage_idle h1, commitStage_idle h2, hx, committedRegs_eq]
  · simp [hvw, State.writesAhead, stageWrites_idle h1, stageWrites_idle h2, he, hrest, commitsOf_commitEvents]

/-- The view stands at the address of the word in decode (R126). -/
theorem Sim.decoding {l : Launch} {s : State} {v : View} (h : Sim l s v) (hr : s.MemoryStageReady)
    (hv : s.ifid.valid = true) :
    s.fetchStop = false ∧ v.cur = s.ifid.ipc ∧ v.nxt = s.pc ∧
    viewStep l v =
      if s.ifid.oob then .raised (.fetchOutOfImage s.ifid.ipc) v
      else match decode s.params.opc s.ifid.word with
        | .error (.unknownOpcode op) => .raised (.encodingError op) v
        | .ok i => viewExec l i v := by
  have hst : s.fetchStop = false := by
    by_contra hc
    have := (h.inv.stopped (by simpa using hc)).1
    simp [hv] at this
  obtain ⟨hc, hn⟩ := h.addrs hr hst
  simp only [hv, if_true] at hc hn
  refine ⟨hst, hc, hn, ?_⟩
  have hl := h.inv.latched hv
  rw [h.images.1] at hl
  unfold viewStep
  rw [hc, ← h.images.2]
  split at hl
  · rw [imemRead_eq_ok.2 hl.2]
    rcases hd : decode s.params.opc s.ifid.word with ⟨⟨op⟩⟩ | i <;> simp [hl.1, hd]
  · rename_i hlt
    rw [imemRead_eq_error.2 ⟨Nat.not_lt.1 hlt, rfl⟩]
    simp [hl]

/-- A failing step fails as the view does (R127). -/
theorem Sim.fails {l : Launch} {s : State} {v : View} {f : Fault} (h : Sim l s v) (hf : FailureSource s f) :
    viewStep l v = .raised f v := by
  cases hf with
  | load h1 h2 => exact h.failing fun hr => absurd (hr h1) (Nat.not_lt.2 h2)
  | fetch hr hp =>
    obtain ⟨hv, ho, -⟩ := presented_outOfImage hp
    simp [(h.decoding hr hv).2.2.2, ho]
  | opcode op hr hp =>
    obtain ⟨hv, ho, hd⟩ := presented_unknown hp
    simp [(h.decoding hr hv).2.2.2, ho, hd]
  | query i r f hr hp hq => exact absurd hq (query_ok_of_pLcr h.inv.lcr r f)

/-- An issuing step that does not stop fetch takes the view's next step: `v'` has the issued instruction's
write, and goes on to the delay slot and what the instruction resolved to. -/
theorem Sim.issued {l : Launch} {s : State} {v v' : View} {i : Instr} {va vb : Word} (h : Sim l s v)
    (hr : s.MemoryStageReady) (hp : presented s = .instruction i) (ha : s.operandNow i.portA = some va)
    (hb : s.operandNow i.portB = some vb) (hns : Instr.stops i = false)
    (t : State) (htd : t = fetchStage s (redirectOf s i va vb) (Instr.stops i)
      (shiftStages (memNext s) (issuedStage s i va) s)) (hh : t.halted = false) (ht : t.Inv)
    (hrt : t.MemoryStageReady) (hx : v'.x = commitStage s.params.opc v.x (memNext t))
    (hw : v'.writes = v.writes ++ stageWrites s.params.opc (memNext t)) (hc : v'.cur = v.nxt)
    (hn : v'.nxt = (redirectOf s i va vb).addr) : Sim l t v' := by
  have hk : StepKind s t := by rw [htd]; exact .issues i va vb hr hp ha hb
  have hf : t.failed = none := by rw [htd]; exact h.live.1
  obtain ⟨hst, -, hnx, -⟩ := h.decoding hr (presented_instruction hp).1
  obtain ⟨ha1, ha2⟩ := hk.ahead hf
  obtain ⟨hvx, hvw⟩ := h.regs hr
  have hs' : t.fetchStop = false := by rw [htd]; simp [hst, hns]
  exact
    { live := ⟨hf, hh⟩
      inv := ht
      images := by rw [htd]; exact h.images
      drained := h.drained_next hk hf
      failing := fun hn => absurd hrt hn
      regs := fun _ => ⟨by rw [hx, ha1, hvx], by rw [hw, ha2, hvw]⟩
      addrs := fun _ _ => by
        rw [hc, hn, hnx, htd]
        simp [hst, hns, fetchedWord_eq]
      stopped := fun _ hc => by simp [hs'] at hc }

/-! ### The instructions -/

/-- What each instruction resolves to under an injective opcode map (R85, R89). -/
theorem redirectOf_eq {s : State} (h : s.params.wf = true) (i : Instr) (va vb : Word) :
    redirectOf s i va vb =
      match i with
      | .beq _ _ _ imm => if condEqual va vb then .redirected imm else .sequential (s.pc + 1#12)
      | .blt _ _ _ imm => if condLess va vb then .redirected imm else .sequential (s.pc + 1#12)
      | .jal _ _ _ imm => .redirected imm
      | .addi .. => .sequential (s.pc + 1#12)
      | .subi .. => .sequential (s.pc + 1#12)
      | .lw .. => .sequential (s.pc + 1#12)
      | .halt .. => .sequential (s.pc + 1#12) := by
  obtain ⟨h1, h2, h3, h4, h5, -⟩ := Opc.distinct (o := s.params.opc) h
  cases i <;> simp [redirectOf, taken, Instr.fields, Opc.isBeq, Opc.isBlt, Opc.isJal, h1, h2, h3,
    h4.1.symm, h4.2.1.symm, h4.2.2.symm, h5.1.symm, h5.2.symm, Ne.symm (Opc.distinct (o := s.params.opc) h).2.2.2.2.2]

/-- The effective destination of an instruction of the map (R55, R60). -/
theorem effectiveDestination_fields {o : Opc} (h : o.wf = true) (i : Instr) :
    effectiveDestination o (i.fields o) =
      match i with
      | .jal .. => 15#4
      | .addi rd _ _ _ => rd
      | .subi rd _ _ _ => rd
      | .lw rd _ _ _ => rd
      | .beq rd _ _ _ => rd
      | .blt rd _ _ _ => rd
      | .halt rd _ _ _ => rd := by
  cases i <;> simp [effectiveDestination, Instr.isJal_fields h] <;> rfl

/-- A register write of the view is the commit of a stage with that destination and value. -/
theorem View.write_eq {o : Opc} {st : Stage} {v : View} {d : RegIdx} {w : Word} {n : Addr}
    (hv : st.valid = true ∧ st.regWrite = true) (hd : effectiveDestination o st.instr = d)
    (hw : stageValue o st = w) :
    (v.write d w n).x = commitStage o v.x st ∧ (v.write d w n).writes = v.writes ++ stageWrites o st := by
  subst hd hw
  constructor
  · simp [View.write, commitStage, hv]
  · by_cases h0 : effectiveDestination o st.instr = 0#4 <;> simp [View.write, stageWrites, hv, h0]

/-- The step in which an instruction issues (R118), against the view's step. -/
theorem Sim.issues {l : Launch} {s : State} {v : View} {i : Instr} {va vb : Word} (h : Sim l s v)
    (hr : s.MemoryStageReady) (hp : presented s = .instruction i) (ha : s.operandNow i.portA = some va)
    (hb : s.operandNow i.portB = some vb)
    (t : State) (htd : t = fetchStage s (redirectOf s i va vb) (Instr.stops i)
      (shiftStages (memNext s) (issuedStage s i va) s)) (hh : t.halted = false) (ht : t.Inv) :
    StepSim l s v t := by
  have hk : StepKind s t := by rw [htd]; exact .issues i va vb hr hp ha hb
  have hf : t.failed = none := by rw [htd]; exact h.live.1
  have hwf : s.params.wf = true := h.inv.launchWf.2
  have hwo : s.params.opc.wf = true := hwf
  obtain ⟨hv, ho, hd⟩ := presented_instruction hp
  obtain ⟨hst, hcur, hnxt, hstep⟩ := h.decoding hr hv
  simp only [ho, hd, Bool.false_eq_true, if_false] at hstep
  obtain ⟨hvx, hvw⟩ := h.regs hr
  have hva : va = readReg v.x i.portA := by rw [hvx]; exact operandNow_eq h.inv.lcr ha
  have hvb : vb = readReg v.x i.portB := by rw [hvx]; exact operandNow_eq h.inv.lcr hb
  have hex : t.ex = issuedStage s i va := by rw [htd]; rfl
  have hpar : t.params = s.params := by rw [htd]; rfl
  have hmem : t.memory = s.memory := by rw [htd]; rfl
  have hred := redirectOf_eq hwf i va vb
  have hdst := effectiveDestination_fields hwo i
  have hload := Instr.isLoad_fields hwo i
  have hvalid : (memNext t).valid = true := by rw [memNext_valid, hex]; rfl
  have hinstr : (memNext t).instr = i.fields s.params.opc := by rw [memNext_instr, hex]; rfl
  have hrw : (memNext t).regWrite = i.regWrite := by rw [memNext_regWrite, hex]; rfl
  have halu : (memNext t).aluResult = Instr.issueValue s i va := by rw [memNext_aluResult, hex]; rfl
  -- an instruction that is no load leaves the memory stage ready and forwards its `alu_result`
  have hready : s.params.opc.isLoad (i.fields s.params.opc).opcode = false → t.MemoryStageReady := by
    intro hn hl
    have := hl.2
    rw [hpar, hex] at this
    simp only [issuedStage, hn, Bool.false_eq_true] at this
  have hvalue : s.params.opc.isLoad (i.fields s.params.opc).opcode = false →
      stageValue s.params.opc (memNext t) = Instr.issueValue s i va := by
    intro hn
    simp only [stageValue, hinstr, hn, halu, Bool.false_eq_true, if_false]
  have hidle : i.regWrite = false →
      commitStage s.params.opc v.x (memNext t) = v.x ∧ stageWrites s.params.opc (memNext t) = [] := by
    intro hn
    have : ¬ ((memNext t).valid = true ∧ (memNext t).regWrite = true) := by
      rw [hrw, hn]
      exact fun h' => Bool.false_ne_true h'.2
    exact ⟨commitStage_idle this, stageWrites_idle this⟩
  cases i with
  | addi rd rs rt imm =>
    obtain ⟨e1, e2⟩ := View.write_eq (v := v) (d := rd) (n := v.nxt + 1#12) ⟨hvalid, hrw⟩
      (by rw [hinstr, hdst])
      (hvalue (by rw [hload]))
    refine .both _ (by rw [hstep]; rfl) ?_
    rw [← h.images.2, ← show va = readReg v.x rs from hva]
    exact h.issued hr hp ha hb rfl t htd hh ht (hready (by rw [hload])) e1 e2 rfl
      (by rw [hred, hnxt]; rfl)
  | subi rd rs rt imm =>
    obtain ⟨e1, e2⟩ := View.write_eq (v := v) (d := rd) (n := v.nxt + 1#12) ⟨hvalid, hrw⟩
      (by rw [hinstr, hdst])
      (hvalue (by rw [hload]))
    refine .both _ (by rw [hstep]; rfl) ?_
    rw [← h.images.2, ← show va = readReg v.x rs from hva]
    exact h.issued hr hp ha hb rfl t htd hh ht (hready (by rw [hload])) e1 e2 rfl
      (by rw [hred, hnxt]; rfl)
  | lw rd rs rt imm =>
    have haddr : alu l.params .lw (readReg v.x rs) imm = t.ex.aluResult := by
      rw [← h.images.2, ← show va = readReg v.x rs from hva, hex]; rfl
    have hmv : viewStep l v = match dmemRead l.memory t.ex.aluResult with
        | .ok w => .next (v.write rd w (v.nxt + 1#12))
        | .error f => .raised f v := by rw [hstep, ← haddr]; rfl
    have hlt : t.LoadInEx := by
      constructor
      · rw [hex]; rfl
      · rw [hpar, hex]; simp only [issuedStage, hload]
    by_cases hrt : t.MemoryStageReady
    · have hlen := hrt hlt
      rw [hmem, h.images.1] at hlen
      have hget : l.memory.dmem[t.ex.aluResult.toNat]? = some (l.memory.dmem.getD t.ex.aluResult.toNat 0#32) := by
        simp only [Memory.dlen] at hlen
        simp [List.getD, hlen]
      have hld : stageValue s.params.opc (memNext t) = l.memory.dmem.getD t.ex.aluResult.toNat 0#32 := by
        have hl2 : s.params.opc.isLoad t.ex.instr.opcode = true := by rw [← hpar]; exact hlt.2
        simp only [stageValue, memNext, hpar, hlt.1, hl2, Bool.and_self, if_true, hmem, h.images.1]
      obtain ⟨e1, e2⟩ := View.write_eq (v := v) (d := rd) (n := v.nxt + 1#12) ⟨hvalid, hrw⟩
        (by rw [hinstr, hdst]) hld
      refine .both _ (by rw [hmv, dmemRead_eq_ok.2 hget]) ?_
      exact h.issued hr hp ha hb rfl t htd hh ht hrt e1 e2 rfl (by rw [hred, hnxt]; rfl)
    · refine .alone ⟨⟨hf, hh⟩, ht, by rw [hmem, hpar]; exact h.images, h.drained_next hk hf, fun _ => ?_,
        fun hc => absurd hc hrt, fun hc => absurd hc hrt, fun hc => absurd hc hrt⟩ ?_
      · rw [hmv, dmemRead_eq_error.2 ⟨?_, rfl⟩]
        rw [← h.images.1, ← hmem]
        by_contra hc
        exact hrt fun _ => Nat.not_le.1 hc
      · rw [lag_of_not_ready hrt, lag_of_ready hr, hst]
        simp only [Bool.false_eq_true, if_false]
        omega
  | beq rd rs rt imm =>
    obtain ⟨e1, e2⟩ := hidle rfl
    refine .both (v.goto (if condEqual (readReg v.x rs) (readReg v.x rt) then imm else v.nxt + 1#12))
      (by rw [hstep]; rfl) ?_
    refine h.issued hr hp ha hb rfl t htd hh ht (hready (by rw [hload])) e1.symm (by rw [e2]; simp [View.goto])
      rfl ?_
    rw [hred, hnxt, show va = readReg v.x rs from hva, show vb = readReg v.x rt from hvb]
    simp only [View.goto]
    split <;> rfl
  | blt rd rs rt imm =>
    obtain ⟨e1, e2⟩ := hidle rfl
    refine .both (v.goto (if condLess (readReg v.x rs) (readReg v.x rt) then imm else v.nxt + 1#12))
      (by rw [hstep]; rfl) ?_
    refine h.issued hr hp ha hb rfl t htd hh ht (hready (by rw [hload])) e1.symm (by rw [e2]; simp [View.goto])
      rfl ?_
    rw [hred, hnxt, show va = readReg v.x rs from hva, show vb = readReg v.x rt from hvb]
    simp only [View.goto]
    split <;> rfl
  | jal rd rs rt imm =>
    obtain ⟨e1, e2⟩ := View.write_eq (v := v) (d := linkReg) (n := imm) ⟨hvalid, hrw⟩ (by rw [hinstr, hdst])
      (hvalue (by rw [hload]))
    refine .both (v.write linkReg (linkValue l.params v.cur) imm) (by rw [hstep]; rfl) ?_
    rw [← h.images.2, hcur]
    exact h.issued hr hp ha hb rfl t htd hh ht (hready (by rw [hload])) e1 e2 rfl (by rw [hred]; rfl)
  | halt rd rs rt imm =>
    obtain ⟨e1, e2⟩ := hidle rfl
    obtain ⟨a1, a2⟩ := hk.ahead hf
    have hrt := hready (by rw [hload])
    have hstop : t.fetchStop = true := by rw [htd]; simp [Instr.stops]
    have hview : viewStep l v = .stopped v := by rw [hstep]; rfl
    refine .alone ⟨⟨hf, hh⟩, ht, by rw [hmem, hpar]; exact h.images, h.drained_next hk hf,
      fun hc => absurd hrt hc, fun _ => ?_, fun _ hc => ?_, fun _ _ => hview⟩ ?_
    · rw [a1, a2, ← hvx, e1, e2, List.append_nil]; exact ⟨rfl, hvw⟩
    · simp [hstop] at hc
    · rw [lag_of_ready hrt, lag_of_ready hr, hst, hstop]
      simp only [Bool.false_eq_true, if_false, if_true]
      split <;> split <;> omega

/-- A step of a running core, against the view. -/
theorem sim_step {l : Launch} {s t : State} {v : View} (h : Sim l s v) (hs : step s = .next t) (ht : t.Inv) :
    StepSim l s v t := by
  have hk := step_kind h.live hs
  by_cases hf : t.failed = none
  case neg =>
    cases hk with
    | fails f hsrc => exact .fails f rfl (h.fails hsrc)
    | waits _ _ => exact absurd h.live.1 hf
    | empty _ _ => exact absurd h.live.1 hf
    | issues _ _ _ _ _ _ _ => exact absurd h.live.1 hf
  by_cases hh : t.halted = true
  · exact h.halts hk hf hh
  have hh : t.halted = false := by simpa using hh
  have hk' := hk
  obtain ⟨hr, -, -, -, -, -, -, hM, hP, -⟩ := hk.older hf
  obtain ⟨a1, a2⟩ := hk.ahead hf
  have hd := h.drained_next hk hf
  obtain ⟨hvx, hvw⟩ := h.regs hr
  have himg : t.memory = l.memory ∧ t.params = l.params := by rw [hM, hP]; exact h.images
  -- a bubble in `EX` leaves the view's registers where they are
  have hbub : t.ex = .bubble → t.MemoryStageReady ∧ v.x = t.regsAhead ∧ v.writes = t.writesAhead := by
    intro hb
    rw [a1, a2, memNext_bubble hb, commitStage_bubble, stageWrites_bubble, List.append_nil]
    exact ⟨ready_of_bubble (by rw [hb]; rfl), hvx, hvw⟩
  cases hk with
  | fails f _ => simp at hf
  | waits _ hw =>
    obtain ⟨hv, -⟩ := waits_load hw
    obtain ⟨hst, hc, hn, -⟩ := h.decoding hr hv
    obtain ⟨hrt, hx, hw'⟩ := hbub rfl
    refine .alone ⟨⟨hf, hh⟩, ht, himg, hd, fun hc => absurd hrt hc, fun _ => ⟨hx, hw'⟩, fun _ _ => ?_,
      fun _ hc => ?_⟩ ?_
    · exact ⟨by rw [hc]; exact (if_pos hv).symm, by rw [hn]; exact (if_pos hv).symm⟩
    · exact absurd hst (by simpa using hc)
    · rw [lag_of_ready hrt, lag_of_ready hr, waitsNow_bubble (by rfl), waitsNow_iff.2 hw]
      simp [hst, hv]
  | empty _ hp =>
    obtain ⟨hrt, hx, hw'⟩ := hbub rfl
    have hv := presented_nothing hp
    have hnw : s.waitsNow = false := by
      rw [Bool.eq_false_iff, ne_eq, waitsNow_iff]
      exact fun hw => by have := (waits_load hw).1; simp [hv] at this
    cases hst : s.fetchStop with
    | false =>
      obtain ⟨hc, hn⟩ := h.addrs hr hst
      refine .alone ⟨⟨hf, hh⟩, ht, himg, hd, fun hc => absurd hrt hc, fun _ => ⟨hx, hw'⟩, fun _ _ => ?_,
        fun _ hc => ?_⟩ ?_
      · simp [hc, hn, hv, hst, fetchedWord_eq, sequentialNext, FetchRedirect.addr]
      · simp [hst] at hc
      · rw [lag_of_ready hrt, lag_of_ready hr, waitsNow_bubble (by rfl), hnw]
        simp [hst, hv, fetchedWord_eq]
    | true =>
      refine .alone ⟨⟨hf, hh⟩, ht, himg, hd, fun hc => absurd hrt hc, fun _ => ⟨hx, hw'⟩, fun _ hc => ?_,
        fun _ _ => h.stopped hr hst⟩ ?_
      · simp [hst] at hc
      · obtain ⟨-, -, hha, -⟩ := hk'.older hf
        have hnw' : ¬ s.HoldsHalt s.wb := by
          rw [hh] at hha
          simpa [haltCommits, State.HoldsHalt] using hha.symm
        have hto : ¬ s.HoldsHalt .bubble := fun hc => by simp [State.HoldsHalt, Stage.bubble] at hc
        have hmn : s.HoldsHalt (memNext s) ↔ s.HoldsHalt s.ex := by simp [State.HoldsHalt]
        have hor : s.HoldsHalt s.ex ∨ s.HoldsHalt s.mem := by
          rcases (h.inv.stopped hst).2 with h1 | h1 | h1 | h1
          · exact .inl h1
          · exact .inr h1
          · exact absurd h1 hnw'
          · simp [h.live.2] at h1
        have hn1 : ¬ s.HoldsHalt (fetchStage s (sequentialNext s) false
            (shiftStages (memNext s) .bubble s)).ex := hto
        have hn2 : s.HoldsHalt (fetchStage s (sequentialNext s) false
            (shiftStages (memNext s) .bubble s)).mem ↔ s.HoldsHalt s.ex := hmn
        have hlag : ∀ st, State.HoldsHalt (fetchStage s (sequentialNext s) false
            (shiftStages (memNext s) .bubble s)) st ↔ s.HoldsHalt st := fun _ => Iff.rfl
        rw [lag_of_ready hrt, lag_of_ready hr, if_pos hst, if_pos (by simp [hst]), if_neg (by rw [hlag]; exact hn1)]
        by_cases hx' : s.HoldsHalt s.ex
        · rw [if_pos hx']
          split <;> omega
        · rw [if_neg (by rw [hlag, hn2]; exact hx'), if_neg hx', if_pos (hor.resolve_left hx')]
          omega
  | issues i va vb _ hp ha hb => exact h.issues hr hp ha hb _ rfl hh ht

/-! ### The cycles of a run (R156) -/

/-- How many cycles a core has made beyond those in which an instruction issued or waited. -/
def State.overhead (s : State) : Nat :=
  if s.halted then 4 else if s.fetchStop then
    (if s.HoldsHalt s.ex then 1 else if s.HoldsHalt s.mem then 2 else 3)
  else if s.ifid.valid then 1 else 0

/-- Each cycle issues, waits, or adds to the overhead: the first fetch, and the `HALT` on its way to `WB`. -/
theorem overhead_step {l : Launch} {s t : State} {v : View} (h : Sim l s v) (hs : step s = .next t)
    (hf : t.failed = none) :
    s.overhead + 1 = (if issuesNow s then 1 else 0) + (if s.waitsNow then 1 else 0) + t.overhead := by
  have hk := step_kind h.live hs
  have hk' := hk
  obtain ⟨hr, -, hha, -⟩ := hk'.older hf
  have hwb : t.halted = true ↔ s.HoldsHalt s.wb := by rw [hha]; simp [haltCommits, State.HoldsHalt]
  have hnh : s.fetchStop = false → t.halted = false := by
    intro hc
    rw [Bool.eq_false_iff, ne_eq, hwb]
    exact fun hw => by simp [h.inv.halting (.inr (.inr (.inl hw)))] at hc
  cases hk with
  | fails f _ => simp at hf
  | waits _ hw =>
    obtain ⟨hv, -⟩ := waits_load hw
    obtain ⟨hst, -⟩ := h.decoding hr hv
    obtain ⟨i, hp, hstall⟩ := hw
    have hi : issuesNow s = false := by simp [State.issuesNow, hp, hstall]
    have hwn : s.waitsNow = true := waitsNow_iff.2 ⟨i, hp, hstall⟩
    simp [State.overhead, h.live.2, hst, hv, hi, hwn, show haltCommits s = false from hnh hst]
  | empty _ hp =>
    have hv := presented_nothing hp
    have hi : issuesNow s = false := by simp [State.issuesNow, hp]
    have hwn : s.waitsNow = false := by simp [State.waitsNow, hp]
    cases hst : s.fetchStop with
    | false =>
      simp [State.overhead, h.live.2, hst, hv, hi, hwn, fetchedWord_eq, show haltCommits s = false from hnh hst]
    | true =>
      have hor : s.HoldsHalt s.ex ∨ s.HoldsHalt s.mem ∨ s.HoldsHalt s.wb := by
        rcases (h.inv.stopped hst).2 with h1 | h1 | h1 | h1
        · exact .inl h1
        · exact .inr (.inl h1)
        · exact .inr (.inr h1)
        · simp [h.live.2] at h1
      have hexm : s.HoldsHalt s.mem → ¬ s.HoldsHalt s.ex := fun h1 h2 => by simpa [h2.1] using h.drained.1 h1
      have hwbm : s.HoldsHalt s.wb → ¬ s.HoldsHalt s.ex ∧ ¬ s.HoldsHalt s.mem := fun h1 =>
        ⟨fun h2 => by simpa [h2.1] using (h.drained.2 h1).1, fun h2 => by simpa [h2.1] using (h.drained.2 h1).2⟩
      have hov : s.overhead = if s.HoldsHalt s.ex then 1 else if s.HoldsHalt s.mem then 2 else 3 := by
        rw [State.overhead, h.live.2, hst]; rfl
      have hto : State.overhead (fetchStage s (sequentialNext s) false (shiftStages (memNext s) .bubble s)) =
          if s.HoldsHalt s.wb then 4 else if s.HoldsHalt s.ex then 2 else 3 := by
        rw [State.overhead]
        have hb : ¬ s.HoldsHalt .bubble := fun hc => by simp [State.HoldsHalt, Stage.bubble] at hc
        have hm : s.HoldsHalt (memNext s) ↔ s.HoldsHalt s.ex := by simp [State.HoldsHalt]
        have hlag : ∀ st, State.HoldsHalt (fetchStage s (sequentialNext s) false
            (shiftStages (memNext s) .bubble s)) st ↔ s.HoldsHalt st := fun _ => Iff.rfl
        by_cases hw : s.HoldsHalt s.wb
        · rw [if_pos (hwb.2 hw), if_pos hw]
        · rw [if_neg (fun hc => hw (hwb.1 hc)), if_neg hw, if_pos (by simp [hst]),
            if_neg (by rw [hlag]; exact hb)]
          by_cases hx : s.HoldsHalt s.ex
          · rw [if_pos hx, if_pos (by rw [hlag]; exact hm.2 hx)]
          · rw [if_neg hx, if_neg (by rw [hlag]; exact fun hc => hx (hm.1 hc))]
      rw [hov, hto, hi, hwn]
      by_cases h1 : s.HoldsHalt s.ex
      · rw [if_pos h1, if_neg (fun hw => (hwbm hw).1 h1), if_pos h1]; rfl
      · by_cases h2 : s.HoldsHalt s.mem
        · rw [if_neg h1, if_pos h2, if_neg (fun hw => (hwbm hw).2 h2), if_neg h1]; rfl
        · rw [if_neg h1, if_neg h2, if_pos ((hor.resolve_left h1).resolve_left h2)]; rfl
  | issues i va vb _ hp ha hb =>
    obtain ⟨hv, -⟩ := presented_instruction hp
    obtain ⟨hst, -⟩ := h.decoding hr hv
    have hro := readOperands_ready ha hb
    have hi : issuesNow s = true := by simp [State.issuesNow, hp, hro]
    have hwn : s.waitsNow = false := by simp [State.waitsNow, hp, hro]
    have hh := hnh hst
    have hso : s.overhead = 1 := by rw [State.overhead, h.live.2, hst, hv]; rfl
    rw [hso, hi, hwn, State.overhead, hh]
    cases hstop : Instr.stops i with
    | false =>
      simp [hst, fetchedWord_eq]
    | true =>
      have hhalt : s.HoldsHalt (issuedStage s i va) := by
        cases i <;> simp [Instr.stops] at hstop
        exact ⟨rfl, by simp [issuedStage, Instr.fields, Opc.isHalt]⟩
      refine congrArg (1 + ·) ?_
      rw [if_neg Bool.false_ne_true, if_pos (by simp), if_pos (by exact hhalt)]

end Sys2Proof.Machine
end

