-- ==== Sys2Proof/Tests/Slice0.lean ====
section
/-! SUPPORT. The model's own tests: the checks of WellFormed.lean refuse an ill-formed term, words written out
from the spec's encodings decode to their instructions, one-step results from the spec's vectors
(95_test_vectors.md, whose ids the names carry), and for every obligation a state and operands that meet
its hypotheses. -/

namespace Sys2Proof.Tests

open Sys2Proof.Machine Sys2Proof.Machine.State

/-! ### Building small states -/

/-- The data image `D` of 95_test_vectors.md. -/
def dataD : List Word := [0x00000010#32, 0x00000007#32, 0xFFFFFFFF#32]

/-- A launch of a program over the data image `D`, with the default model arguments. -/
def program (ws : List Word) : State :=
  State.launch { memory := { imem := ws, dmem := dataD }, params := .reference }

/-- The state `n` steps later. -/
def after (n : Nat) (s : State) : State :=
  match run n s with
  | .next t => t
  | _ => s

/-- The word `w`, fetched from address 2, stands in decode of an otherwise empty core over eight words. -/
def inDecode (w : Word) : State :=
  { program (List.replicate 8 w) with ifid := { valid := true, word := w, ipc := 2#12, oob := false }, pc := 3#12 }

/-- Register `r` holds `v`. -/
def withReg (r : RegIdx) (v : Word) (s : State) : State := { s with x := writeReg s.x r v }

/-- A valid stage register. -/
def busy (op : Opcode) (rd : RegIdx) (regWrite : Bool) (a m : Word) : Stage :=
  { valid := true, instr := ⟨op, rd, 0#4, 0#4, 0#12⟩, regWrite := regWrite, aluResult := a, memData := m }

/-- The `alu_result` that enters `EX` in one step. -/
def issued (s : State) : Word := (after 1 s).ex.aluResult

/-- Two outcomes of a step can be compared, to be used locally in the proofs below. -/
def decOutcome : DecidableEq (Host.Outcome State Fault Refusal)
  | .next a, .next b => if h : a = b then .isTrue (by rw [h]) else .isFalse (by simp [h])
  | .fault a, .fault b => if h : a = b then .isTrue (by rw [h]) else .isFalse (by simp [h])
  | .refused a, .refused b => if h : a = b then .isTrue (by rw [h]) else .isFalse (by simp [h])
  | .next _, .fault _ => .isFalse (by simp)
  | .next _, .refused _ => .isFalse (by simp)
  | .fault _, .next _ => .isFalse (by simp)
  | .fault _, .refused _ => .isFalse (by simp)
  | .refused _, .next _ => .isFalse (by simp)
  | .refused _, .fault _ => .isFalse (by simp)

/-- The word register `r` holds once the instruction in decode has committed, four steps on. -/
def committed (r : RegIdx) (s : State) : Word := readReg (after 4 s).x r

/-! ### WellFormed -/

/-- A machine without a core is refused, one core is accepted (R8). -/
theorem test_wf_machine_refuses_no_core :
    MachineLaunch.wf { dmem := [], cores := [] } = false ∧
      MachineLaunch.wf { dmem := [], cores := [([], .reference)] } = true := by decide

/-- A machine with an ill-formed core is refused (R8). -/
theorem test_wf_machine_refuses_bad_core :
    MachineLaunch.wf { dmem := [], cores := [([], .reference), ([], { Params.reference with opc.subi := 0x00#8 })] }
      = false := by decide

/-- Two mnemonics with one number are refused (R8). -/
theorem test_wf_opc_refuses_duplicate : Opc.wf { Opc.reference with subi := 0x00#8 } = false := by decide

theorem test_wf_opc_reference : Opc.reference.wf = true := by decide

theorem test_wf_params_refuses_duplicate :
    Params.wf { Params.reference with opc := { Opc.reference with halt := 0x05#8 } } = false := by decide

/-- The first opcode outside the default map (R54). -/
theorem test_wf_fields_refuses_unknown : Fields.wf .reference ⟨0x07#8, 0#4, 0#4, 0#4, 0#12⟩ = false := by decide

/-- Images of `n` and `k` words are accepted up to the bounds of R30 and R8. -/
theorem wf_replicate (n k : Nat) :
    Memory.wf { imem := List.replicate n 0#32, dmem := List.replicate k 0#32 } =
      (decide (n ≤ 4096) && decide (k ≤ 4294967296)) := by
  simp only [Memory.wf, Memory.plen, Memory.dlen, List.length_replicate, Nat.reducePow]

/-- 4097 instruction words do not fit (R30, V18). -/
theorem test_wf_memory_refuses_imem :
    Memory.wf { imem := List.replicate 4097 0#32, dmem := List.replicate 0 0#32 } = false :=
  (wf_replicate 4097 0).trans (by decide)

/-- 4096 instruction words fit. -/
theorem test_wf_memory_full_imem :
    Memory.wf { imem := List.replicate 4096 0#32, dmem := List.replicate 0 0#32 } = true :=
  (wf_replicate 4096 0).trans (by decide)

/-- 2^32 + 1 data words do not fit (R8). -/
theorem test_wf_memory_refuses_dmem :
    Memory.wf { imem := List.replicate 0 0#32, dmem := List.replicate 4294967297 0#32 } = false :=
  (wf_replicate 0 4294967297).trans (by decide)

theorem test_wf_launch_refuses_opc :
    Launch.wf { memory := .empty, params := { Params.reference with opc := { Opc.reference with lw := 0x00#8 } } }
      = false := by decide

theorem test_wf_reset_memory : State.reset.memory.wf = true := by decide

/-! ### Decoding (30_encoding.md R59, vectors E1 to E15) -/

/-- E1: opcode 00, rd 3, rs 3, rt 0, imm 002. -/
theorem test_decode_addi : decode .reference 0x00330002#32 = .ok (.addi 3#4 3#4 0#4 2#12) := by decide
/-- E3: imm FFF is -1. -/
theorem test_decode_addi_negative : decode .reference 0x00110FFF#32 = .ok (Asm.addi 1#4 1#4 (-1)) := by decide
/-- E15: the ignored rt field is kept. -/
theorem test_decode_addi_rt : decode .reference 0x0012F003#32 = .ok (.addi 1#4 2#4 15#4 3#12) := by decide
/-- E2. -/
theorem test_decode_subi : decode .reference 0x01220001#32 = .ok (.subi 2#4 2#4 0#4 1#12) := by decide
/-- E4. -/
theorem test_decode_lw : decode .reference 0x02100001#32 = .ok (.lw 1#4 0#4 0#4 1#12) := by decide
/-- E5. -/
theorem test_decode_beq : decode .reference 0x03020000#32 = .ok (.beq 0#4 2#4 0#4 0#12) := by decide
/-- E6. -/
theorem test_decode_blt : decode .reference 0x04023005#32 = .ok (.blt 0#4 2#4 3#4 5#12) := by decide
/-- E8: 7 in the ignored rd field. -/
theorem test_decode_jal : decode .reference 0x05700004#32 = .ok (.jal 7#4 0#4 0#4 4#12) := by decide
/-- E10: every field of a HALT is ignored. -/
theorem test_decode_halt : decode .reference 0x06ABCDEF#32 = .ok (.halt 10#4 11#4 12#4 0xDEF#12) := by decide
/-- E12. -/
theorem test_decode_refuses_07 : decode .reference 0x07000000#32 = .error (.unknownOpcode 0x07#8) := by decide
/-- E13. -/
theorem test_decode_refuses_ff : decode .reference 0xFFFFFFFF#32 = .error (.unknownOpcode 0xFF#8) := by decide
/-- The opcode table's numbering: bit 31 is the word's bit 31. -/
theorem test_decodeTableWord : decodeTableWord 32 0x04023005 = some (.blt 0#4 2#4 3#4 5#12) := by decide
theorem test_decodeTableWord_refuses : decodeTableWord 32 0x07000000 = none := by decide
/-- The word the host loads runs as the first instruction after reset. -/
theorem test_withFetchWord :
    step (State.reset.withFetchWord 32 0x00330002) =
      exec (.addi 3#4 3#4 0#4 2#12) (State.reset.withFetchWord 32 0x00330002) := by rfl

/-! ### The forwarding unit (vectors F, H) -/

/-- F3: the youngest of three writers wins. -/
theorem test_resolve_F3 : resolve .reference 5#4 (busy 0 5 true 0x11 0) (busy 0 5 true 0x22 0)
    (busy 0 5 true 0x33 0) 5#4 = .ok (.value 0x11#32) := by decide
/-- F5: an invalid `EX` is ignored; a load in `MEM` gives `mem_data`, not its address. -/
theorem test_resolve_F5 : resolve .reference 5#4 { busy 0 5 true 0x11 0 with valid := false }
    (busy 2 5 true 0x4 0xAA) .bubble 0#4 = .ok (.value 0xAA#32) := by decide
/-- F14: `lcr` must account for the link override. -/
theorem test_resolve_F14 : resolve .reference 15#4 .bubble .bubble (busy 5 3 true 0x9 0) 3#4 =
    .error (.hazardPolicyViolation 3#4 15#4) := by decide
/-- F23: a mismatch with destination 0. -/
theorem test_resolve_F23 : resolve .reference 3#4 .bubble .bubble (busy 0 0 true 0x33 0) 3#4 =
    .error (.hazardPolicyViolation 3#4 0#4) := by decide
/-- F28: a stall, not a failure, above a corrupt `WB`. -/
theorem test_resolve_F28 : resolve .reference 5#4 (busy 2 5 true 0x4 0) .bubble (busy 0 5 true 0x33 0) 6#4 =
    .ok .stallRequired := by decide
/-- F26: an unknown opcode in a stage is a plain writer of its `rd`. -/
theorem test_resolve_F26 : resolve .reference 5#4 (busy 0x7F 5 true 0x11 0) .bubble .bubble 0#4 =
    .ok (.value 0x11#32) := by decide
/-- H2. -/
theorem test_effectiveDestination_H2 : effectiveDestination .reference ⟨5, 7, 0, 0, 0⟩ = 15#4 := by decide

/-! ### The branch resolver and the fetch state (vectors B, M) -/

/-- B4: a difference in bit 31 only. -/
theorem test_resolveBranch_B4 :
    resolveBranch .reference ⟨3, 0, 0, 0, 9⟩ 0x00000001#32 0x80000001#32 3#12 = .ok (.sequential 4#12) := by decide
/-- B10: the largest positive against the most negative value. -/
theorem test_resolveBranch_B10 :
    resolveBranch .reference ⟨4, 0, 0, 0, 5⟩ 0x7FFFFFFF#32 0x80000000#32 3#12 = .ok (.sequential 4#12) := by decide
/-- B18: the successor wraps. -/
theorem test_resolveBranch_B18 :
    resolveBranch .reference ⟨3, 0, 0, 0, 7⟩ 1#32 2#32 0xFFF#12 = .ok (.sequential 0#12) := by decide
/-- B20. -/
theorem test_resolveBranch_B20 :
    resolveBranch .reference ⟨7, 0, 0, 0, 0⟩ 0#32 0#32 3#12 = .error (.encodingError 0x07#8) := by decide
/-- M1. -/
theorem test_fetchTransition_M1 :
    fetchTransition true (.redirected 5#12) 3#12 .sequential = (5#12, .redirected 5#12) := by decide
/-- M5. -/
theorem test_fetchTransition_M5 :
    fetchTransition false (.sequential 8#12) 7#12 .sequential = (7#12, .sequential) := by decide

/-! ### One instruction (vectors A, L, B, J) -/

/-- A2: the sum wraps. -/
theorem test_addi_A2 : issued (withReg 1 0xFFFFFFFF#32 (inDecode 0x00110001#32)) = 0#32 := by decide
/-- A7: a write to register 0 is discarded. -/
theorem test_addi_A7 : committed 0 (withReg 1 7#32 (inDecode 0x00010005#32)) = 0#32 := by decide
/-- A11: no overflow signal. -/
theorem test_subi_A11 : issued (withReg 1 0x80000000#32 (inDecode 0x01110001#32)) = 0x7FFFFFFF#32 := by decide
/-- A13: subtracting -2048. -/
theorem test_subi_A13 : issued (inDecode 0x01100800#32) = 0x00000800#32 := by decide
/-- L3: the address wraps modulo 2^32. -/
theorem test_lw_L3 : (after 2 (withReg 1 0xFFFFFFFF#32 (inDecode 0x02610002#32))).mem.memData = 7#32 := by decide
/-- L7: a load of an address outside the image fails, also with destination 0. -/
theorem test_lw_L7 : (after 2 (inDecode 0x02000003#32)).failed = some (.dataAddressOutOfImage 3#32) := by decide
/-- B1 in the pipeline: taken, the delay slot at 3 is latched, then address 0 is fetched. -/
theorem test_beq_taken :
    let t := after 1 (withReg 2 5#32 (inDecode 0x03022000#32))
    t.pc = 0#12 ∧ t.fs = .redirected 0#12 ∧ t.ifid.ipc = 3#12 := by decide
/-- B2 in the pipeline: not taken. -/
theorem test_beq_not_taken :
    let t := after 1 (withReg 2 5#32 (inDecode 0x03023000#32))
    t.pc = 4#12 ∧ t.fs = .sequential ∧ t.ifid.ipc = 3#12 := by decide
/-- B8: -2^31 < 0. -/
theorem test_blt_taken : (after 1 (withReg 2 0x80000000#32 (inDecode 0x04020005#32))).pc = 5#12 := by decide
/-- B9: 0 < -1 is false. -/
theorem test_blt_not_taken : (after 1 (withReg 3 0xFFFFFFFF#32 (inDecode 0x04003005#32))).pc = 4#12 := by decide
/-- R98's example: the link value goes to register 15 and the `rd` field's register keeps its value. -/
theorem test_jal_link :
    committed 15 (inDecode 0x05700004#32) = 4#32 ∧ committed 7 (inDecode 0x05700004#32) = 0#32 := by decide
/-- J3: the link value wraps modulo 4096. -/
theorem test_jal_J3 : linkValue .reference 4094#12 = 0#32 := by decide
/-- A `HALT` in decode stops fetch and holds `pc` (M5). -/
theorem test_halt_stops :
    let t := after 1 (inDecode 0x06000000#32)
    t.fetchStop = true ∧ t.pc = 3#12 ∧ t.ifid.valid = false ∧ t.halted = false := by decide
/-- A `HALT` in `WB` ends the run (R112). -/
theorem test_halt_ends : (after 1 { program [] with wb := busy 6 0 false 0 0 }).halted = true := by decide

/-- P9: the older instruction's failure is the one reported. -/
theorem test_P9 :
    (after 3 (State.launch { memory := { imem := [0x02100005#32], dmem := [1#32] }, params := .reference })).failed =
      some (.dataAddressOutOfImage 5#32) := by decide
/-- P6: the word fetched past the image fails when it is decoded. -/
theorem test_P6 : (after 4 (program [0x00100001#32, 0x00210001#32])).failed = some (.fetchOutOfImage 2#12) := by decide

/-- S2, cycle 2: the query for `R2` is answered from `EX`, by the step and by R124's `advance` (R149, log 19). -/
theorem test_S2_cycle2 :
    let s := after 2 (program [0x00220001#32, 0x01220001#32, 0x03020000#32, 0x00330001#32, 0x06000000#32])
    s.cycle = 2 ∧ query s 2#4 = .ok (.value 1#32) ∧ s = cycles 2 (program
      [0x00220001#32, 0x01220001#32, 0x03020000#32, 0x00330001#32, 0x06000000#32]) := by decide

/-- S1: the word decoded in cycle 1 commits as `commit(4, R3, 2)`; in cycle 5 `R3` holds 2, in cycle 4 not yet
(R156, log 20). -/
theorem test_S1_first_commit :
    let s := program [0x00330002#32, 0x00220001#32, 0x04023005#32, 0x00440001#32, 0x00660001#32, 0x00550001#32]
    (after 1 s).ifid.ipc = 0#12 ∧ readReg (after 4 s).x 3#4 = 0#32 ∧ readReg (after 5 s).x 3#4 = 2#32 ∧
      Event.commit 4 3#4 2#32 ∈ (after 5 s).events := by decide

/-! ### Witnesses: for every obligation with hypotheses, a state and operands that meet them -/

/-- P1 of the vectors: a load, its use directly behind it, three more instructions. -/
def p1 : State := program [0x02100001#32, 0x00210003#32, 0x01320001#32, 0x00410000#32, 0x06000000#32]

/-- P4 of the vectors, its first six words: a taken branch in the delay slot of a taken branch. -/
def p4 : State := program
  [0x01100001#32, 0x04010005#32, 0x03000008#32, 0x00200001#32, 0x06000000#32, 0x00300001#32]

/-- An operand reads as `readReg` gives it in an empty pipeline. -/
def ready (rs rt : RegIdx) : State := withReg rs 1#32 (withReg rt 2#32 (inDecode 0#32))

theorem witness_DecodeAndEncodeAgree :
    Opc.reference.wf = true ∧ decode .reference 0x05700004#32 = .ok (.jal 7#4 0#4 0#4 4#12) := by decide

theorem witness_UnknownOpcodeRaisesEncodingError :
    let s := inDecode 0x07000000#32
    Opc.reference.known 0x07#8 = false ∧ Opc.reference.known 0xFF#8 = false ∧ s.Live ∧ s.MemoryStageReady ∧
      s.ifid.valid = true ∧ s.ifid.oob = false ∧
      s.params.opc.known (decodeFields s.ifid.word).opcode = false := by decide

theorem witness_UnusedFieldsHaveNoEffect : State.reset.params.opc.wf = true := by decide

theorem witness_EffectiveDestinationOverridesForJal :
    Opc.reference.wf = true ∧ (∀ rd rs rt imm, Instr.halt 0 0 0 0 ≠ .jal rd rs rt imm) ∧
      Opc.reference.known (⟨0x7F, 15, 0, 0, 0⟩ : Fields).opcode = false :=
  ⟨by decide, by simp, by decide⟩

/-- The load in `EX` (F4) and the load in `MEM` below a miss (F5). -/
theorem witness_OnlyALoadInExecuteStalls :
    let o := Opc.reference
    o.wf = true ∧ resolve o 5#4 (busy 2 5 true 0x4 0) (busy 0 5 true 0x22 0) .bubble 0#4 = .ok .stallRequired ∧
    stageHit o 5#4 .bubble = false ∧ (busy 2 5 true 0x4 0xAA).valid = true ∧
    (busy 2 5 true 0x4 0xAA).regWrite = true ∧ (busy 2 5 true 0x4 0xAA).instr.rd = 5#4 ∧
    o.isLoad (busy 2 5 true 0x4 0xAA).instr.opcode = true := by decide

/-- F31, F32 and F8, at the register numbers 1 and 15. -/
theorem witness_PriorityLaw :
    let o := Opc.reference
    (1#4 ≠ 0#4 ∧ stageHit o 1#4 (busy 0 1 true 7 0) = true ∧ o.isLoad (busy 0 1 true 7 0).instr.opcode = false) ∧
    (stageHit o 15#4 .bubble = false ∧ stageHit o 15#4 (busy 5 0 true 9 0) = true ∧
      o.isLoad (busy 5 0 true 9 0).instr.opcode = false) ∧
    (stageHit o 5#4 .bubble = false ∧ stageHit o 5#4 (busy 0 6 true 9 0) = false ∧
      stageHit o 5#4 (busy 0 5 true 0x33 0) = true) := by decide

/-- A corrupt `WB` met by the operand of an `ADDI` in decode. -/
def corrupt : State := { inDecode 0x00110001#32 with wb := busy 0 5 true 0x33 0, lcr := 6#4 }

theorem witness_WritebackMismatchIsReported :
    corrupt.Live ∧ corrupt.MemoryStageReady ∧ presented corrupt = .instruction (.addi 1 1 0 1) ∧
      query corrupt (Instr.addi 1 1 0 1).portA = .error (.hazardPolicyViolation 6#4 5#4) := by decide

theorem witness_NotFoundMeansNoWriterInFlight :
    let o := Opc.reference
    let st := busy 0 6 true 9 0
    resolve o 15#4 st .bubble .bubble 0#4 = .ok .notFound ∧ 15#4 ≠ 0#4 ∧
    (st.valid = true → st.regWrite = true → 6#4 = effectiveDestination o st.instr) ∧
    (∀ x ∈ [Stage.bubble, Stage.bubble, st], x.valid = true → x.regWrite = true →
      effectiveDestination o x.instr ≠ 15#4) ∧
    query State.reset 1#4 = .ok .notFound := by decide

theorem witness_StagesWithoutAWriteAreIgnored :
    let a := busy 2 5 false 1 2
    let b := { busy 0 5 true 3 4 with valid := false }
    a ≠ b ∧ (a.valid && a.regWrite) = false ∧ (b.valid && b.regWrite) = false := by decide

theorem witness_ForwardPortsAgree :
    (forwardPorts .reference 5#4 (busy 2 5 true 0x4 0) .bubble .bubble 0#4).stall = true ∧
    (forwardPorts .reference 5#4 (busy 0 5 true 0x11 0) .bubble .bubble 0#4).fwdValue = some 0x11#32 ∧
    (forwardPorts .reference 0#4 (busy 2 0 true 0x4 0) .bubble .bubble 0#4).fwdValue = some 0#32 ∧
    (forwardPorts .reference 9#4 .bubble .bubble (busy 0 5 true 0x33 0) 6#4).fwdKind = 3#2 ∧
    (forwardPorts .reference 9#4 .bubble .bubble .bubble 0#4).fwdKind = 0#2 ∧
    (forwardPorts .reference 5#4 .bubble .bubble (busy 0 5 true 0x33 0) 5#4).fwdSel = 3#2 := by decide

theorem witness_BranchResolverDecides :
    Opc.reference.wf = true ∧ Opc.reference.known (⟨0xFF, 0, 0, 0, 0⟩ : Fields).opcode = false := by decide

theorem witness_ArithmeticIsModulo32 :
    resolveBranch .reference ⟨5, 0, 0, 0, 0xFFF⟩ 0#32 0#32 0xFFF#12 = .ok (.redirected 0xFFF#12) := by decide

theorem reset_not_waits {s : State} (h : s.ex.valid = false) : ¬ s.Waits :=
  fun hw => by have := (waits_load hw).2.1; simp [h] at this

/-- A redirect (address 0, the wrap of `pc` at 4095) and a sequential fetch cycle, also past the image. -/
theorem witness_FetchCycleFollowsTheRedirect :
    (let s := { inDecode 0x05000000#32 with pc := 4095#12 }
     s.Live ∧ step s = .next (after 1 s) ∧ (after 1 s).failed = none ∧ s.fetchStop = false ∧ ¬ s.Waits ∧
      ¬ s.HaltInDecode ∧ s.redirectNow = .redirected 0#12 ∧ s.memory.plen ≤ s.pc.toNat) ∧
    (let s := { inDecode 0x00330002#32 with pc := 4095#12 }
     s.Live ∧ step s = .next (after 1 s) ∧ (after 1 s).failed = none ∧ s.fetchStop = false ∧ ¬ s.Waits ∧
      ¬ s.HaltInDecode ∧ s.redirectNow = .sequential 0#12) := by
  let _ := decOutcome
  refine ⟨⟨by decide, by decide, by decide, by decide, reset_not_waits rfl, ?_, by decide, by decide⟩,
    ⟨by decide, by decide, by decide, by decide, reset_not_waits rfl, ?_, by decide⟩⟩
  · rintro ⟨a, b, c, d, h⟩
    rw [show presented _ = .instruction (.jal 0 0 0 0) by decide] at h
    simp at h
  · rintro ⟨a, b, c, d, h⟩
    rw [show presented _ = .instruction (.addi 3 3 0 2) by decide] at h
    simp at h

/-- P1 in cycle 2: the use of the load waits. -/
theorem witness_StallHoldsFetchForOneCycle :
    (after 2 p1).Live ∧ (after 2 p1).MemoryStageReady ∧ (after 2 p1).Waits ∧
      query (after 2 p1) 1#4 = .ok .stallRequired :=
  ⟨by decide, by decide, ⟨.addi 2 1 0 3, by decide, by decide⟩, by decide⟩

theorem witness_FetchStaysStopped :
    (let s := inDecode 0x06000000#32
     s.Live ∧ s.MemoryStageReady ∧ s.HaltInDecode ∧ run 1 s = .next (after 1 s) ∧ (after 1 s).failed = none) ∧
    (let s := after 1 (inDecode 0x06000000#32)
     s.Live ∧ s.MemoryStageReady ∧ s.fetchStop = true ∧ run 2 s = .next (after 2 s) ∧
      (after 2 s).failed = none) := by
  let _ := decOutcome
  exact ⟨⟨by decide, by decide, ⟨0, 0, 0, 0, by decide⟩, by decide, by decide⟩, by decide⟩

/-- P4 in cycles 2 and 3: the delay-slot instruction is itself a taken branch. -/
theorem witness_DelaySlotThenTarget :
    let s := after 2 p4
    let t := after 3 p4
    s.params.wf = true ∧ s.Live ∧ step s = .next t ∧ t.failed = none ∧ s.fetchStop = false ∧
      s.redirectNow = .redirected 5#12 ∧ t.halted = false ∧ ¬ t.Waits ∧ ¬ t.HaltInDecode ∧
      step t = .next (after 4 p4) ∧ (after 4 p4).failed = none ∧ t.redirectNow = .redirected 8#12 := by
  let _ := decOutcome
  refine ⟨by decide, by decide, by decide, by decide, by decide, by decide, by decide, ?_, ?_, by decide,
    by decide, by decide⟩
  · intro h
    exact absurd (waits_load h).2 (by decide)
  · rintro ⟨a, b, c, d, h⟩
    rw [show presented _ = .instruction (.beq 0 0 0 8) by decide] at h
    simp at h

/-- P1 in cycle 4, where the load is in `WB`, and in cycle 0, where nothing is. -/
theorem witness_WriteBackCommits :
    (let s := after 4 p1
     s.Live ∧ step s = .next (after 5 p1) ∧ (after 5 p1).failed = none ∧ s.wb.valid = true ∧
      s.wb.regWrite = true ∧ effectiveDestination s.params.opc s.wb.instr = 1#4) ∧
    (p1.Live ∧ step p1 = .next (after 1 p1) ∧ (after 1 p1).failed = none ∧ p1.wb.valid = false) := by
  let _ := decOutcome
  decide

/-- A load of the last word of the image, of the first address above it, and an `ADDI` in `EX`. -/
theorem witness_StagesAdvance :
    (let s := { p1 with ex := busy 2 1 true 2 0 }
     s.Live ∧ step s = .next (after 1 s) ∧ (after 1 s).failed = none ∧ s.LoadInEx) ∧
    (let s := { p1 with ex := busy 0 1 true 3 0 }
     s.Live ∧ step s = .next (after 1 s) ∧ (after 1 s).failed = none ∧ ¬ s.LoadInEx) ∧
    (let s := { p1 with ex := busy 2 1 true 3 0 }
     s.Live ∧ s.LoadInEx ∧ s.memory.dlen ≤ s.ex.aluResult.toNat) := by
  let _ := decOutcome
  decide

/-- A corrupt `WB` met by port B only, port A's register hitting a load in `EX`. -/
def corruptB : State := { corrupt with ifid := { corrupt.ifid with word := 0x03078000#32 }, ex := busy 2 7 true 0 0 }

theorem witness_OldestFailureIsReported :
    (let s := { corrupt with ex := busy 2 1 true 3 0 }
     s.Live ∧ s.LoadInEx ∧ s.memory.dlen ≤ s.ex.aluResult.toNat) ∧
    (let s := { corrupt with ifid := { corrupt.ifid with oob := true } }
     s.Live ∧ s.MemoryStageReady ∧ s.ifid.valid = true ∧ s.ifid.oob = true) ∧
    (let s := { corrupt with ifid := { corrupt.ifid with word := 0x07000000#32 } }
     s.Live ∧ s.MemoryStageReady ∧ s.ifid.valid = true ∧ s.ifid.oob = false ∧
      s.params.opc.known (decodeFields s.ifid.word).opcode = false) ∧
    (corrupt.Live ∧ corrupt.MemoryStageReady ∧ presented corrupt = .instruction (.addi 1 1 0 1) ∧
      query corrupt 1#4 = .error (.hazardPolicyViolation 6#4 5#4)) ∧
    (corruptB.Live ∧ corruptB.MemoryStageReady ∧ presented corruptB = .instruction (.beq 0 7 8 0) ∧
      query corruptB 7#4 = .ok .stallRequired ∧
      query corruptB 8#4 = .error (.hazardPolicyViolation 6#4 5#4)) := by decide

theorem witness_FailureIsTerminal :
    corrupt.failed = none ∧ step corrupt = .next (after 1 corrupt) ∧
      (after 1 corrupt).failed = some (.hazardPolicyViolation 6#4 5#4) := by
  let _ := decOutcome
  decide

theorem witness_StepRunsTheDecodedInstruction :
    (let s := inDecode 0x00330002#32
     s.Live ∧ s.ifid.valid = true ∧ s.ifid.oob = false ∧
      decode s.params.opc s.ifid.word = .ok (.addi 3 3 0 2)) ∧
    (State.reset.Live ∧ State.reset.MemoryStageReady ∧ State.reset.ifid.valid = false) := by decide

theorem witness_StepIsAdvance :
    p1.params.wf = true ∧ p1.failed = none ∧ ({ p1 with halted := true } : State).halted = true ∧
      (after 1 corrupt).failed = some (.hazardPolicyViolation 6#4 5#4) := by decide

/-- The operands of an `ADDI`, a `SUBI` or an `LW`: from the register file, for register 0, from `EX`. -/
theorem witness_one_operand :
    (ready 1 2).params.wf = true ∧ (ready 1 2).MemoryStageReady ∧ (ready 1 2).operandNow 1#4 = some 1#32 ∧
      (ready 1 2).operandNow 0#4 = some 0#32 ∧
      ({ ready 1 2 with ex := busy 0 1 true 7 0 } : State).operandNow 1#4 = some 7#32 := by decide

/-- The two operands of a branch, equal and unequal. -/
theorem witness_two_operands :
    (ready 1 2).params.wf = true ∧ (ready 1 2).MemoryStageReady ∧ (ready 1 2).operandNow 1#4 = some 1#32 ∧
      (ready 1 2).operandNow 2#4 = some 2#32 := by decide

/-- The way of an `ADDI R3,R3,2` to its commit, from the state it issued into. -/
theorem witness_RetiresInto :
    let t := after 1 (inDecode 0x00330002#32)
    RetiresInto t (after 2 t) (after 3 t) := by
  let _ := decOutcome
  refine ⟨by decide, by decide, by decide, by decide⟩

/-- The way of a `HALT` to its commit. -/
theorem witness_RetiresInto_halt :
    let t := after 1 (inDecode 0x06000000#32)
    RetiresInto t (after 2 t) (after 3 t) ∧ run 2 t = .next (after 2 t) := by
  let _ := decOutcome
  refine ⟨⟨by decide, by decide, by decide, by decide⟩, by decide⟩

/-- The clauses of the load's statement: a word of the image, and the first address above it. -/
theorem witness_LwLoadsAndCommits :
    let t := after 1 (inDecode 0x02100002#32)
    let u := after 1 (inDecode 0x02000003#32)
    t.memory.dmem[t.ex.aluResult.toNat]? = some 0xFFFFFFFF#32 ∧ RetiresInto t (after 2 t) (after 3 t) ∧
      u.Live ∧ u.memory.dlen ≤ u.ex.aluResult.toNat := by
  let _ := decOutcome
  refine ⟨by decide, ⟨by decide, by decide, by decide, by decide⟩, by decide, by decide⟩

theorem witness_ExecFrame : ∃ t, exec (.halt 0 0 0 0) (after 4 p1) = .next t := ⟨_, rfl⟩

theorem witness_launch :
    Launch.wf { memory := { imem := [0x06000000#32], dmem := dataD }, params := .reference } = true ∧
    Launch.wf { memory := { imem := [], dmem := [] }, params := { opc := .reference, linkOffset := .one, alu := .other 0 } }
      = true := by decide

/-- The invariant in a state of a run in which an instruction waits (P1, cycle 2). -/
theorem witness_Inv : (after 2 p1).Inv := by
  refine { launchWf := by decide, zero := by decide, lcr := by decide, lcrIdle := by decide, opc := by decide
           intent := by decide, bubbles := by decide, redirected := ?_, redirectCause := ?_
           latched := by decide, stopped := by decide, halting := by decide, noViolation := ?_ }
  · intro t h; rw [show (after 2 p1).fs = .sequential by decide] at h; cases h
  · rintro ⟨t, h⟩; rw [show (after 2 p1).fs = .sequential by decide] at h; cases h
  · intro a b h; rw [show (after 2 p1).failed = none by decide] at h; cases h

theorem witness_StepKeepsInv : (after 2 p1).Inv ∧ step (after 2 p1) = .next (after 3 p1) := by
  let _ := decOutcome
  exact ⟨witness_Inv, by decide⟩

theorem witness_NoStallWhileRedirected : (after 2 p1).Inv ∧ (after 2 p1).Waits :=
  ⟨witness_Inv, witness_StallHoldsFetchForOneCycle.2.2.1⟩

theorem witness_ImagesNeverChange : run 2 p1 = .next (after 2 p1) := by
  let _ := decOutcome
  decide

/-- The shortest run that ends normally: one `HALT`, five cycles. -/
theorem witness_NormalRunCycleCount :
    let l : Launch := { memory := { imem := [0x06000000#32], dmem := [] }, params := .reference }
    let s := after 4 (State.launch l)
    l.wf = true ∧ run 4 (State.launch l) = .next s ∧ s.halted = false ∧ step s = .next (after 1 s) ∧
      (after 1 s).halted = true := by
  let _ := decOutcome
  decide

/-- Both sides of the agreement at a normal end: one `HALT`. -/
theorem witness_HaltedRunsAgreeWithTheView :
    let l : Launch := { memory := { imem := [0x06000000#32], dmem := [] }, params := .reference }
    l.wf = true ∧ run 5 (State.launch l) = .next (after 5 (State.launch l)) ∧
      (after 5 (State.launch l)).NormalEnd ∧ viewRun l 1 View.start = .stopped View.start := by
  let _ := decOutcome
  decide

/-- Both sides of the agreement at a failure: the empty image. -/
theorem witness_FailedRunsAgreeWithTheView :
    let l : Launch := { memory := .empty, params := .reference }
    l.wf = true ∧ run 3 (State.launch l) = .fault (.fetchOutOfImage 0#12) ∧
      viewRun l 1 View.start = .raised (.fetchOutOfImage 0#12) View.start := by
  let _ := decOutcome
  decide

theorem witness_CoresRunIndependently :
    let m : MachineLaunch := { dmem := dataD, cores := [(p1.memory.imem, .reference), ([], .reference)] }
    m.wf = true ∧ m.ncores = 2 ∧ p1 ∈ launchCores m := by decide

theorem witness_TheTwoViewsAgree :
    Launch.wf { memory := { imem := [0x00220001#32, 0x01220001#32, 0x03020000#32, 0x00330001#32], dmem := [] },
                params := .reference } = true := by decide

/-- P1 in cycles 1 to 3, at the boundaries of the clauses; in cycle 2 register 1 is hit and register 2 is not. -/
theorem witness_FirstCyclesAfterALaunch :
    run 1 p1 = .next (after 1 p1) ∧ run 2 p1 = .next (after 2 p1) ∧ run 3 p1 = .next (after 3 p1) ∧
      stageHit .reference 1#4 (after 2 p1).ex = true ∧ stageHit .reference 2#4 (after 2 p1).ex = false := by
  let _ := decOutcome
  decide

/-- An `ADDI R3,R3,2` and a `HALT` from decode to their commit. -/
theorem witness_RetiredFourCyclesAfterDecode :
    (let s := inDecode 0x00330002#32
     s.params.wf = true ∧ s.Live ∧ presented s = .instruction (.addi 3 3 0 2) ∧ ¬ s.Waits ∧
      step s = .next (after 1 s) ∧ (after 1 s).failed = none ∧
      RetiresInto (after 1 s) (after 2 (after 1 s)) (after 3 (after 1 s))) ∧
    (let s := inDecode 0x06000000#32
     s.params.wf = true ∧ s.Live ∧ presented s = .instruction (.halt 0 0 0 0) ∧ ¬ s.Waits ∧
      step s = .next (after 1 s) ∧ (after 1 s).failed = none ∧
      RetiresInto (after 1 s) (after 2 (after 1 s)) (after 3 (after 1 s))) := by
  let _ := decOutcome
  exact ⟨⟨by decide, by decide, by decide, reset_not_waits rfl, by decide, by decide, witness_RetiresInto⟩,
    ⟨by decide, by decide, by decide, reset_not_waits rfl, by decide, by decide, witness_RetiresInto_halt.1⟩⟩

end Sys2Proof.Tests
end

section
/-! Several cores (R25, R128, R146): what a schedule does to one core, what a machine's launch gives, and when
the machine's run is over. -/

namespace Sys2Proof.Machine

/-! ### A schedule, core by core -/

@[simp] theorem getElem?_advanceCore_same (k : Nat) (cores : List State) :
    (advanceCore k cores)[k]? = (cores[k]?).map advance := by
  simp [advanceCore]

@[simp] theorem getElem?_advanceCore_other {j k : Nat} (h : j ≠ k) (cores : List State) :
    (advanceCore j cores)[k]? = cores[k]? :=
  List.getElem?_modify_ne advance cores h

/-- A schedule reaches core `k` only through the number of cycles it gives that core. -/
theorem getElem?_runCores (sched : List Nat) (cores : List State) (k : Nat) :
    (runCores sched cores)[k]? = (cores[k]?).map (cycles (sched.count k)) := by
  induction sched generalizing cores with
  | nil =>
    have hid : cycles 0 = id := rfl
    simp [runCores, hid]
  | cons j js ih =>
    rw [runCores, ih]
    by_cases h : j = k
    · subst h
      have hsucc : cycles (js.count j) ∘ advance = cycles (js.count j + 1) := rfl
      simp [hsucc]
    · simp [h]

/-! ### The launch of a machine -/

@[simp] theorem length_launchCores (m : MachineLaunch) : (launchCores m).length = m.ncores := by
  simp [launchCores, MachineLaunch.launches, MachineLaunch.ncores]

theorem getElem?_launchCores (m : MachineLaunch) (k : Nat) : (launchCores m)[k]? =
    (m.cores[k]?).map fun c => State.launch { memory := { imem := c.1, dmem := m.dmem }, params := c.2 } := by
  simp [launchCores, MachineLaunch.launches, Function.comp_def]

/-- Every core of a launched machine is a core at launch, over the machine's one data image (R46). -/
theorem exists_launch_of_mem_launchCores {m : MachineLaunch} {s : State} (h : s ∈ launchCores m) :
    ∃ l : Launch, l.memory.dmem = m.dmem ∧ s = State.launch l := by
  obtain ⟨l, hl, rfl⟩ := List.mem_map.1 h
  obtain ⟨c, -, rfl⟩ := List.mem_map.1 hl
  exact ⟨_, rfl, rfl⟩

theorem launchCores_dmem_pc {m : MachineLaunch} {s : State} (h : s ∈ launchCores m) :
    s.memory.dmem = m.dmem ∧ s.pc = 0#12 := by
  obtain ⟨l, hd, rfl⟩ := exists_launch_of_mem_launchCores h
  exact ⟨hd, rfl⟩

/-! ### The end of the machine's run -/

theorem coresOver_iff (cores : List State) :
    coresOver cores = true ↔ ∀ s ∈ cores, s.halted = true ∨ s.failed ≠ none := by
  simp [coresOver, Option.isSome_iff_ne_none]

/-- A machine with a core is not over at launch: that core has neither halted nor failed. -/
theorem coresOver_launchCores {m : MachineLaunch} (h : 1 ≤ m.ncores) : coresOver (launchCores m) = false := by
  obtain ⟨s, hs⟩ := List.exists_mem_of_length_pos (by rwa [length_launchCores])
  obtain ⟨l, -, rfl⟩ := exists_launch_of_mem_launchCores hs
  refine Bool.eq_false_iff.2 fun hover => ?_
  rcases (coresOver_iff _).1 hover _ hs with hhalted | hfailed
  · exact Bool.false_ne_true hhalted
  · exact hfailed rfl

theorem one_le_ncores_of_wf {m : MachineLaunch} (h : m.wf = true) : 1 ≤ m.ncores := by
  simp only [MachineLaunch.wf, Bool.and_eq_true, decide_eq_true_eq] at h
  exact h.1

/-- Settles O46, by induction on the schedule for the independence and, at launch, from the reset value of every
core. -/
theorem coresRunIndependently : Obligations.CoresRunIndependently := by
  refine ⟨getElem?_runCores, fun _ _ => launchCores_dmem_pc, getElem?_launchCores, fun m hwf => ?_, coresOver_iff⟩
  have hn : 1 ≤ m.ncores := one_le_ncores_of_wf hwf
  exact ⟨by simpa using hn, length_launchCores m, coresOver_launchCores hn⟩

end Sys2Proof.Machine
end

section
/-! What a query of the forwarding unit reads of each stage (R18 to R20, R68, R73): the hits, and the
authoritative field of the stage that hits. -/

namespace Sys2Proof.Machine

/-- The answer of a query in terms of the hits and the authoritative fields (R61, R68, R73). -/
theorem resolve_eq (o : Opc) (r : RegIdx) (ex mem wb : Stage) (lcr : RegIdx) :
    resolve o r ex mem wb lcr =
      if r = 0#4 then .ok (.value 0#32)
      else if stageHit o r ex then
        if o.isLoad ex.instr.opcode then .ok .stallRequired else .ok (.value (stageValue o ex))
      else if stageHit o r mem then .ok (.value (stageValue o mem))
      else if wbBad o wb lcr then .error (.hazardPolicyViolation lcr (effectiveDestination o wb.instr))
      else if wbHit r wb lcr then .ok (.value (stageValue o wb))
      else .ok .notFound := by
  rcases resolve_cases o r ex mem wb lcr with ⟨rfl, h⟩ | ⟨he, hl, h⟩ | ⟨he, hl, h⟩ | ⟨he, hm, h⟩ |
    ⟨hr, he, hm, hb, h⟩ | ⟨he, hm, hb, hw, h⟩ | ⟨hr, he, hm, hb, hw, h⟩
  · simp [h]
  · simp [h, he, hl, (stageHit_iff.1 he).2.2.2]
  · simp [h, he, hl, (stageHit_iff.1 he).2.2.2, stageValue]
  · simp [h, he, hm, (stageHit_iff.1 hm).2.2.2]
  · simp [h, hr, he, hm, hb]
  · simp [h, he, hm, hb, hw, (wbHit_iff.1 hw).2.2.2]
  · simp [h, hr, he, hm, hb, hw]

/-! ### Stages without a register write -/

theorem stageHit_idle {st : Stage} (h : (st.valid && st.regWrite) = false) (o : Opc) (r : RegIdx) :
    stageHit o r st = false := by simp [stageHit, h]

theorem wbHit_idle {wb : Stage} (h : (wb.valid && wb.regWrite) = false) (r lcr : RegIdx) :
    wbHit r wb lcr = false := by simp [wbHit, h]

theorem wbBad_idle {wb : Stage} (h : (wb.valid && wb.regWrite) = false) (o : Opc) (lcr : RegIdx) :
    wbBad o wb lcr = false := by simp [wbBad, h]

/-- To a query, a stage without a register write is a bubble (R18, R19). -/
theorem resolve_ex_idle {ex : Stage} (h : (ex.valid && ex.regWrite) = false) (o : Opc) (r : RegIdx)
    (mem wb : Stage) (lcr : RegIdx) : resolve o r ex mem wb lcr = resolve o r .bubble mem wb lcr := by
  rw [resolve_eq, resolve_eq, stageHit_idle h, stageHit_idle (st := .bubble) rfl]
  rfl

theorem resolve_mem_idle {mem : Stage} (h : (mem.valid && mem.regWrite) = false) (o : Opc) (r : RegIdx)
    (ex wb : Stage) (lcr : RegIdx) : resolve o r ex mem wb lcr = resolve o r ex .bubble wb lcr := by
  rw [resolve_eq, resolve_eq, stageHit_idle h, stageHit_idle (st := .bubble) rfl]
  rfl

/-- With a `WB` that retires no register write, `lcr` is not read either (R22). -/
theorem resolve_wb_idle {wb : Stage} (h : (wb.valid && wb.regWrite) = false) (o : Opc) (r : RegIdx)
    (ex mem : Stage) (lcr : RegIdx) : resolve o r ex mem wb lcr = resolve o r ex mem .bubble 0#4 := by
  rw [resolve_eq, resolve_eq, wbBad_idle h, wbHit_idle h, wbBad_idle (wb := .bubble) rfl,
    wbHit_idle (wb := .bubble) rfl]
  rfl

/-- Settles O14: stage by stage, the two queries are equal or both read a bubble there. -/
theorem stagesWithoutAWriteAreIgnored : Obligations.StagesWithoutAWriteAreIgnored := by
  intro o r ex ex' mem mem' wb wb' lcr lcr' hex hmem hwb
  have e1 : resolve o r ex mem wb lcr = resolve o r ex' mem wb lcr := by
    rcases hex with rfl | ⟨h, h'⟩
    · rfl
    · rw [resolve_ex_idle h, resolve_ex_idle h']
  have e2 : resolve o r ex' mem wb lcr = resolve o r ex' mem' wb lcr := by
    rcases hmem with rfl | ⟨h, h'⟩
    · rfl
    · rw [resolve_mem_idle h, resolve_mem_idle h']
  have e3 : resolve o r ex' mem' wb lcr = resolve o r ex' mem' wb' lcr' := by
    rcases hwb with ⟨rfl, rfl⟩ | ⟨h, h'⟩
    · rfl
    · rw [resolve_wb_idle h, resolve_wb_idle h']
  exact e1.trans (e2.trans e3)

/-! ### Fields that are not authoritative -/

/-- Two stages that a hit test cannot tell apart: they differ in `alu_result` and `mem_data` only. -/
structure Stage.SameWrite (st st' : Stage) : Prop where
  valid : st.valid = st'.valid
  regWrite : st.regWrite = st'.regWrite
  instr : st.instr = st'.instr

theorem Stage.SameWrite.stageHit {st st' : Stage} (h : st.SameWrite st') (o : Opc) (r : RegIdx) :
    stageHit o r st = stageHit o r st' := by
  simp [Machine.stageHit, h.valid, h.regWrite, h.instr]

theorem Stage.SameWrite.wbHit {st st' : Stage} (h : st.SameWrite st') (r lcr : RegIdx) :
    wbHit r st lcr = wbHit r st' lcr := by
  simp [Machine.wbHit, h.valid, h.regWrite]

theorem Stage.SameWrite.wbBad {st st' : Stage} (h : st.SameWrite st') (o : Opc) (lcr : RegIdx) :
    wbBad o st lcr = wbBad o st' lcr := by
  simp [Machine.wbBad, h.valid, h.regWrite, h.instr]

/-- A query reads the authoritative field of `MEM` and `WB`, and of `EX` unless it holds a load (R20, R68). -/
theorem resolve_congr {o : Opc} {ex ex' mem mem' wb wb' : Stage} (r lcr : RegIdx)
    (hex : ex.SameWrite ex') (hmem : mem.SameWrite mem') (hwb : wb.SameWrite wb')
    (vex : o.isLoad ex'.instr.opcode = false → stageValue o ex = stageValue o ex')
    (vmem : stageValue o mem = stageValue o mem') (vwb : stageValue o wb = stageValue o wb') :
    resolve o r ex mem wb lcr = resolve o r ex' mem' wb' lcr := by
  rw [resolve_eq, resolve_eq, hex.stageHit, hmem.stageHit, hwb.wbBad, hwb.wbHit, hex.instr, hwb.instr, vmem, vwb]
  cases hl : o.isLoad ex'.instr.opcode
  · rw [vex hl]
  · rfl

/-- `st` with `w` in the field that is not authoritative (R20 (d)). -/
def Stage.hide (o : Opc) (st : Stage) (w : Word) : Stage :=
  if o.isLoad st.instr.opcode then { st with aluResult := w } else { st with memData := w }

theorem Stage.hide_sameWrite (o : Opc) (st : Stage) (w : Word) : (st.hide o w).SameWrite st := by
  unfold Stage.hide
  split <;> exact ⟨rfl, rfl, rfl⟩

theorem Stage.stageValue_hide (o : Opc) (st : Stage) (w : Word) : stageValue o (st.hide o w) = stageValue o st := by
  cases hl : o.isLoad st.instr.opcode <;> simp [stageValue, Stage.hide, hl]

/-- Settles O15: the authoritative fields are the same, but for the `mem_data` of a load in `EX`, which no
query reads. -/
theorem nonAuthoritativeFieldsAreNeverRead : Obligations.NonAuthoritativeFieldsAreNeverRead := by
  intro o r ex mem wb lcr a b c
  have hex := Stage.hide_sameWrite o ex a
  refine resolve_congr (ex := { ex.hide o a with memData := b }) (mem := mem.hide o b) (wb := wb.hide o c) r lcr
    ⟨hex.valid, hex.regWrite, hex.instr⟩ (Stage.hide_sameWrite ..) (Stage.hide_sameWrite ..)
    (fun hl => ?_) (Stage.stageValue_hide ..) (Stage.stageValue_hide ..)
  simp [stageValue, Stage.hide, hl]

end Sys2Proof.Machine
end

section
/-! The frame of a cycle (R13, R38, R112, R114, R123), whatever stands in decode: it fails and changes `failed`
only, or the older stages move on and the fetch side holds once it has stopped. -/

namespace Sys2Proof.Machine

open Sys2Proof.Machine.State

/-- Write-back changes no register but the destination of the instruction in `WB` (R112). -/
theorem readReg_committedRegs_of_not_dest {s : State} {r : RegIdx}
    (h : ¬ (s.wb.valid = true ∧ s.wb.regWrite = true ∧ effectiveDestination s.params.opc s.wb.instr = r)) :
    readReg (committedRegs s) r = readReg s.x r := by
  rcases commit_cases s with ⟨⟨hv, hw, -⟩, hx, -⟩ | ⟨-, hx, -⟩
  · rw [hx]
    exact readReg_writeReg_other _ _ fun hd => h ⟨hv, hw, hd⟩
  · rw [hx]

theorem haltCommits_iff {s : State} : haltCommits s = true ↔ s.HoldsHalt s.wb := by
  simp [haltCommits, HoldsHalt]

theorem nextLcr_cases (s : State) :
    nextLcr s = 0#4 ∨
      (s.mem.valid = true ∧ s.mem.regWrite = true ∧ nextLcr s = effectiveDestination s.params.opc s.mem.instr) := by
  rw [nextLcr_eq]
  split
  · rename_i h
    exact .inr ⟨h.1, h.2, rfl⟩
  · exact .inl rfl

/-- A cycle records a failure and changes nothing else (R123), or commits `WB`, takes `lcr` from `MEM`, and has
the fetch side hold once it has stopped (R94, R112, R114). -/
theorem finishCycle_frame (d : Decoded) (s : State) :
    (∃ f, finishCycle d s = raise f s) ∨
    ((finishCycle d s).x = committedRegs s ∧ (finishCycle d s).failed = s.failed ∧
      (finishCycle d s).lcr = nextLcr s ∧ (finishCycle d s).halted = haltCommits s ∧
      (s.fetchStop = true → (finishCycle d s).fetchStop = true ∧ (finishCycle d s).pc = s.pc ∧
        (finishCycle d s).fs = s.fs)) := by
  rcases finishCycle_cases d s with ⟨-, -, h⟩ | ⟨-, f, -, h⟩ | ⟨-, -, h⟩ | ⟨-, ex', fr, stop, -, h⟩
  · exact .inl ⟨_, h⟩
  · exact .inl ⟨f, h⟩
  · rw [h]
    exact .inr ⟨rfl, rfl, rfl, rfl, fun hs => ⟨hs, rfl, rfl⟩⟩
  · rw [h]
    exact .inr ⟨rfl, rfl, rfl, rfl, fun hs => by simp [hs]⟩

/-- Settles O36: every meaning is a cycle, and the frame of a cycle is that of a failure or of write-back. -/
theorem execFrame : Obligations.ExecFrame := by
  intro i s t hexec
  rw [exec_eq] at hexec
  cases hexec
  rw [finishCycle_memory, finishCycle_params]
  rcases finishCycle_frame (decodeOf i s) s with ⟨f, h⟩ | ⟨hx, hf, hlcr, hhalt, hstop⟩
  · rw [h]
    exact ⟨fun _ _ => rfl, rfl, rfl, fun _ => rfl, fun _ => rfl, rfl, fun _ => ⟨f, rfl⟩, .inl rfl, .inl,
      fun hs => ⟨hs, rfl, rfl⟩⟩
  · refine ⟨fun r hr => ?_, rfl, ?_, fun _ => rfl, fun _ => rfl, rfl, fun hne => absurd hf hne, ?_, fun hh => ?_,
      hstop⟩
    · rw [hx]
      exact readReg_committedRegs_of_not_dest hr
    · simp only [hx, committedRegs_entry_zero]
    · rw [hlcr]
      exact .inr (nextLcr_cases s)
    · rw [hhalt, haltCommits_iff] at hh
      exact .inr hh

end Sys2Proof.Machine
end

section
/-! The invariant `State.Inv`: it holds at a launch (R29, R148), every step keeps it, so it holds of every state a
core reaches, and no run from a launch raises `HazardPolicyViolation` (R114, R133). One lemma per group of clauses;
the failing cycle is apart, since it changes `failed` only (R123). -/

namespace Sys2Proof.Machine

open Sys2Proof.Machine.State

/-! ### At a launch -/

/-- Settles O37: the launch's own memory and arguments, and the reset value of everything else. -/
theorem launchValues : Obligations.LaunchValues := by
  intro l s
  have hreg : ∀ r, readReg s.x r = 0#32 := fun r => by simp [s, readReg, State.reset]
  have hstages : ∀ st ∈ [s.ex, s.mem, s.wb], st = .bubble := by simp [s, State.reset]
  exact ⟨hreg, rfl, rfl, hstages, rfl, rfl, rfl, rfl, rfl, rfl, rfl, rfl⟩

theorem not_holdsHalt_bubble (s : State) : ¬ s.HoldsHalt .bubble := fun h => Bool.false_ne_true h.1

theorem inv_launch {l : Launch} (h : l.wf = true) : (State.launch l).Inv := by
  have hbubble : ∀ st ∈ [(State.launch l).ex, (State.launch l).mem, (State.launch l).wb], st = .bubble := by
    simp [State.reset]
  have hhalt : ¬ ((State.launch l).HoldsHalt .bubble) := not_holdsHalt_bubble _
  exact
    { launchWf := by simpa [Launch.wf] using h
      zero := rfl
      lcr := fun hv => absurd hv Bool.false_ne_true
      lcrIdle := fun _ => rfl
      opc := ⟨fun hv => absurd hv Bool.false_ne_true, fun hv => absurd hv Bool.false_ne_true,
        fun hv => absurd hv Bool.false_ne_true⟩
      intent := fun st hst hv => by rw [hbubble st hst] at hv; cases hv
      bubbles := fun st hst _ => hbubble st hst
      redirected := fun t ht => by cases ht
      redirectCause := fun ⟨t, ht⟩ => by cases ht
      latched := fun hv => absurd hv Bool.false_ne_true
      stopped := fun hs => absurd hs Bool.false_ne_true
      halting := by
        rintro (hh | hh | hh | hh)
        · exact absurd hh hhalt
        · exact absurd hh hhalt
        · exact absurd hh hhalt
        · exact absurd hh Bool.false_ne_true
      noViolation := fun a b hf => by cases hf }

/-- Settles O38: the launch of nothing with the default arguments is the reset state. -/
theorem invHoldsAtLaunch : Obligations.InvHoldsAtLaunch :=
  ⟨fun _ => inv_launch, inv_launch (l := { memory := .empty, params := .reference }) (by decide)⟩

/-! ### The stage registers (R28, R29, R55) -/

/-- What the invariant says of one stage register: a known opcode with the write intent of R55, or a bubble. -/
structure StageWf (o : Opc) (st : Stage) : Prop where
  known : st.valid = true → o.known st.instr.opcode = true
  intent : st.valid = true → st.regWrite = o.writesReg st.instr.opcode
  bubble : st.valid = false → st = .bubble

theorem stageWf_bubble (o : Opc) : StageWf o .bubble where
  known h := absurd h Bool.false_ne_true
  intent h := absurd h Bool.false_ne_true
  bubble _ := rfl

/-- The write intent an instruction has is the one R55 gives its opcode. -/
theorem writesReg_fields {o : Opc} (h : o.wf = true) (i : Instr) :
    o.writesReg (i.fields o).opcode = i.regWrite := by
  cases i with
  | addi rd rs rt imm => exact (Laws.DecoderColumns.addi rd rs rt imm o h).2.1
  | subi rd rs rt imm => exact (Laws.DecoderColumns.subi rd rs rt imm o h).2.1
  | lw rd rs rt imm => exact (Laws.DecoderColumns.lw rd rs rt imm o h).2.1
  | beq rd rs rt imm => exact (Laws.DecoderColumns.beq rd rs rt imm o h).2.1
  | blt rd rs rt imm => exact (Laws.DecoderColumns.blt rd rs rt imm o h).2.1
  | jal rd rs rt imm => exact (Laws.DecoderColumns.jal rd rs rt imm o h).2.1
  | halt rd rs rt imm => exact (Laws.DecoderColumns.halt rd rs rt imm o h).2.1

theorem stageWf_issuedStage {s : State} (h : s.params.opc.wf = true) (i : Instr) (va : Word) :
    StageWf s.params.opc (issuedStage s i va) where
  known _ := Instr.known_fields _ i
  intent _ := (writesReg_fields h i).symm
  bubble hv := by cases hv

/-- The memory stage takes over what the invariant says of `EX`. -/
theorem StageWf.memNext {s : State} (h : StageWf s.params.opc s.ex) : StageWf s.params.opc (memNext s) where
  known hv := by simpa using h.known (by simpa using hv)
  intent hv := by simpa using h.intent (by simpa using hv)
  bubble hv := memNext_bubble (h.bubble (by simpa using hv))

/-- The three stage clauses of the invariant, stage by stage. -/
theorem State.Inv.stageWf {s : State} (h : s.Inv) :
    StageWf s.params.opc s.ex ∧ StageWf s.params.opc s.mem ∧ StageWf s.params.opc s.wb := by
  obtain ⟨hex, hmem, hwb⟩ := h.opc
  exact ⟨⟨hex, h.intent _ (by simp), h.bubbles _ (by simp)⟩,
    ⟨hmem, h.intent _ (by simp), h.bubbles _ (by simp)⟩,
    ⟨hwb, h.intent _ (by simp), h.bubbles _ (by simp)⟩⟩

/-- In a cycle that does not fail `EX` takes a bubble or the instruction in decode (R116, R118). -/
theorem StepKind.ex_cases {s t : State} (h : StepKind s t) (hf : t.failed = none) :
    t.ex = .bubble ∨ ∃ i va, presented s = .instruction i ∧ t.ex = issuedStage s i va := by
  cases h with
  | fails f _ => cases hf
  | waits _ _ => exact .inl rfl
  | empty _ _ => exact .inl rfl
  | issues i va _ _ hp _ _ => exact .inr ⟨i, va, hp, rfl⟩

theorem StepKind.keeps_stageWf {s t : State} (h : StepKind s t) (hi : s.Inv) (hf : t.failed = none) :
    StageWf t.params.opc t.ex ∧ StageWf t.params.opc t.mem ∧ StageWf t.params.opc t.wb := by
  obtain ⟨-, -, -, hwb, -, hmem, -, -, hpar, -⟩ := h.older hf
  obtain ⟨wex, wmem, -⟩ := hi.stageWf
  rw [hpar, hmem, hwb]
  refine ⟨?_, wex.memNext, wmem⟩
  rcases h.ex_cases hf with hex | ⟨i, va, -, hex⟩
  · rw [hex]
    exact stageWf_bubble _
  · rw [hex]
    exact stageWf_issuedStage hi.launchWf.2 i va

/-! ### The fetch side (R24, R93, R121) -/

/-- The latch holds the image word of its address, or is marked out of the image (R121): the invariant's clause
on a valid `IFID`. -/
def IfId.FromImage (m : Memory) (d : IfId) : Prop :=
  if d.ipc.toNat < m.plen then d.oob = false ∧ m.imem[d.ipc.toNat]? = some d.word else d.oob = true

theorem wordAtPc_fromImage (s : State) : s.wordAtPc.FromImage s.memory := by
  unfold IfId.FromImage
  rw [wordAtPc_ipc]
  unfold wordAtPc Memory.plen
  by_cases hlt : s.pc.toNat < s.memory.imem.length <;> simp [hlt, List.getD]

/-- The latch holds (a stall), is emptied, or takes the word at `pc` (R116, R120, R121). -/
theorem StepKind.ifid_cases {s t : State} (h : StepKind s t) (hf : t.failed = none) :
    t.ifid = s.ifid ∨ t.ifid = .bubble ∨ t.ifid = s.wordAtPc := by
  cases h with
  | fails f _ => cases hf
  | waits _ _ => exact .inl rfl
  | empty _ _ =>
    rw [fetchStage_ifid, fetchedWord_eq]
    split <;> simp
  | issues i va vb _ _ _ _ =>
    rw [fetchStage_ifid, fetchedWord_eq]
    split <;> simp

theorem StepKind.keeps_latched {s t : State} (h : StepKind s t) (hi : s.Inv) (hf : t.failed = none)
    (hv : t.ifid.valid = true) : t.ifid.FromImage t.memory := by
  obtain ⟨-, -, -, -, -, -, -, hmem, -⟩ := h.older hf
  rw [hmem]
  rcases h.ifid_cases hf with e | e | e
  · rw [e] at hv ⊢
    exact hi.latched hv
  · rw [e] at hv
    cases hv
  · rw [e]
    exact wordAtPc_fromImage s

/-- A `FetchRedirect` that gives `Redirected(a)` gives the fetch address `a` (R92). -/
theorem FetchRedirect.addr_of_state {fr : FetchRedirect} {a : Addr} (h : fr.state = .redirected a) : fr.addr = a := by
  cases fr with
  | sequential n => cases h
  | redirected b => cases h; rfl

/-- `pc` and `fs` hold, or take what one `FetchRedirect` gives (R92, R93). -/
theorem StepKind.fetch_cases {s t : State} (h : StepKind s t) (hf : t.failed = none) :
    (t.pc = s.pc ∧ t.fs = s.fs) ∨ ∃ fr : FetchRedirect, t.pc = fr.addr ∧ t.fs = fr.state := by
  cases h with
  | fails f _ => cases hf
  | waits _ _ => exact .inl ⟨rfl, rfl⟩
  | empty _ _ =>
    rw [fetchStage_pc, fetchStage_fs]
    split
    · exact .inl ⟨rfl, rfl⟩
    · exact .inr ⟨_, rfl, rfl⟩
  | issues i va vb _ _ _ _ =>
    rw [fetchStage_pc, fetchStage_fs]
    split
    · exact .inl ⟨rfl, rfl⟩
    · exact .inr ⟨_, rfl, rfl⟩

theorem StepKind.keeps_redirected {s t : State} (h : StepKind s t) (hi : s.Inv) (hf : t.failed = none) (a : Addr)
    (ha : t.fs = .redirected a) : t.pc = a := by
  rcases h.fetch_cases hf with ⟨hpc, hfs⟩ | ⟨fr, hpc, hfs⟩
  · rw [hpc]
    exact hi.redirected a (hfs.symm.trans ha)
  · rw [hpc]
    exact FetchRedirect.addr_of_state (hfs.symm.trans ha)

/-- A load is no control transfer (R51). -/
theorem isControl_of_isLoad {o : Opc} (h : o.wf = true) {op : Opcode} (hl : o.isLoad op = true) :
    o.isControl op = false := by
  obtain ⟨-, -, ⟨hbeq, hblt, hjal, -⟩, -⟩ := Opc.distinct h
  obtain rfl : op = o.lw := by simpa [Opc.isLoad] using hl
  simp [Opc.isControl, Opc.isBeq, Opc.isBlt, Opc.isJal, hbeq, hblt, hjal]

/-- An instruction that waits does so behind a load, so no redirect is being fetched (R93, the remark). -/
theorem not_redirected_of_waits {s : State} (hi : s.Inv) (hw : s.Waits) (a : Addr) : s.fs ≠ .redirected a := by
  intro ha
  obtain ⟨hv, -, hload⟩ := waits_load hw
  have hctl := (hi.redirectCause ⟨a, ha⟩ hv).2
  rw [isControl_of_isLoad hi.launchWf.2 hload] at hctl
  cases hctl

/-- Only a control transfer redirects (R85). -/
theorem isControl_of_redirectOf {s : State} {i : Instr} {va vb : Word} {a : Addr}
    (h : (redirectOf s i va vb).state = .redirected a) :
    s.params.opc.isControl (i.fields s.params.opc).opcode = true := by
  by_contra hc
  simp only [Opc.isControl, Bool.or_eq_true, not_or, Bool.not_eq_true] at hc
  simp [redirectOf, taken, hc, FetchRedirect.state] at h

theorem StepKind.keeps_redirectCause {s t : State} (h : StepKind s t) (hi : s.Inv) (hf : t.failed = none)
    (hfs : ∃ a, t.fs = .redirected a) (hv : t.ifid.valid = true) :
    t.ex.valid = true ∧ t.params.opc.isControl t.ex.instr.opcode = true := by
  obtain ⟨a, ha⟩ := hfs
  cases h with
  | fails f _ => cases hf
  | waits _ hw => exact absurd ha (not_redirected_of_waits hi hw a)
  | empty _ _ =>
    rw [fetchStage_ifid] at hv
    rw [fetchStage_fs] at ha
    split at hv
    · cases hv
    · rename_i hns
      rw [if_neg hns] at ha
      cases ha
  | issues i va vb _ _ _ _ =>
    rw [fetchStage_ifid] at hv
    rw [fetchStage_fs] at ha
    split at hv
    · cases hv
    · rename_i hns
      rw [if_neg hns] at ha
      have hctl : s.params.opc.isControl (i.fields s.params.opc).opcode = true := isControl_of_redirectOf ha
      exact ⟨rfl, hctl⟩

/-! ### The `HALT` on its way (R112, R120) -/

theorem holdsHalt_issuedStage {s : State} (h : s.params.opc.wf = true) (i : Instr) (va : Word) :
    s.HoldsHalt (issuedStage s i va) ↔ Instr.stops i = true := by
  cases i <;> simp [HoldsHalt, issuedStage, Instr.isHalt_fields h, Instr.stops]

/-- A `HALT` moves on with every cycle that does not fail: from `EX` to `MEM`, to `WB`, to the end of the run. -/
theorem StepKind.holdsHalt_iff {s t : State} (h : StepKind s t) (hf : t.failed = none) :
    (t.HoldsHalt t.mem ↔ s.HoldsHalt s.ex) ∧ (t.HoldsHalt t.wb ↔ s.HoldsHalt s.mem) ∧
    (t.halted = true ↔ s.HoldsHalt s.wb) := by
  obtain ⟨-, -, hhalt, hwb, -, hmem, -, -, hpar, -⟩ := h.older hf
  rw [hhalt, haltCommits_iff]
  simp [HoldsHalt, hwb, hmem, hpar]

/-- `EX` takes a `HALT` only from decode, where it stops fetch (R120). -/
theorem StepKind.fetchStop_iff {s t : State} (h : StepKind s t) (hi : s.Inv) (hf : t.failed = none) :
    t.fetchStop = true ↔ s.fetchStop = true ∨ t.HoldsHalt t.ex := by
  cases h with
  | fails f _ => cases hf
  | waits _ _ => simp [HoldsHalt, Stage.bubble]
  | empty _ _ => simp [HoldsHalt, Stage.bubble]
  | issues i va vb _ _ _ _ =>
    have hhalt : s.HoldsHalt (issuedStage s i va) ↔ Instr.stops i = true := holdsHalt_issuedStage hi.launchWf.2 i va
    rw [fetchStage_fetchStop, Bool.or_eq_true, ← hhalt]
    rfl

/-- Nothing is in decode in the cycle after one with fetch stopped: a waiting instruction excludes the stop. -/
theorem StepKind.ifid_of_fetchStop {s t : State} (h : StepKind s t) (hi : s.Inv) (hf : t.failed = none)
    (hst : t.fetchStop = true) : t.ifid.valid = false := by
  cases h with
  | fails f _ => cases hf
  | waits _ _ => exact (hi.stopped hst).1
  | empty _ _ =>
    rw [fetchStage_fetchStop] at hst
    rw [fetchStage_ifid, if_pos hst]
    rfl
  | issues i va vb _ _ _ _ =>
    rw [fetchStage_fetchStop] at hst
    rw [fetchStage_ifid, if_pos hst]
    rfl

theorem StepKind.keeps_stopped {s t : State} (h : StepKind s t) (hi : s.Inv) (hl : s.Live) (hf : t.failed = none)
    (hst : t.fetchStop = true) :
    t.ifid.valid = false ∧ (t.HoldsHalt t.ex ∨ t.HoldsHalt t.mem ∨ t.HoldsHalt t.wb ∨ t.halted = true) := by
  refine ⟨h.ifid_of_fetchStop hi hf hst, ?_⟩
  obtain ⟨hmem, hwb, hend⟩ := h.holdsHalt_iff hf
  rw [hmem, hwb, hend]
  rcases (h.fetchStop_iff hi hf).1 hst with hs | hex
  · rcases (hi.stopped hs).2 with hh | hh | hh | hh
    · exact .inr (.inl hh)
    · exact .inr (.inr (.inl hh))
    · exact .inr (.inr (.inr hh))
    · rw [hl.2] at hh
      cases hh
  · exact .inl hex

theorem StepKind.keeps_halting {s t : State} (h : StepKind s t) (hi : s.Inv) (hf : t.failed = none)
    (hh : t.HoldsHalt t.ex ∨ t.HoldsHalt t.mem ∨ t.HoldsHalt t.wb ∨ t.halted = true) : t.fetchStop = true := by
  obtain ⟨hmem, hwb, hend⟩ := h.holdsHalt_iff hf
  rw [hmem, hwb, hend] at hh
  rw [h.fetchStop_iff hi hf]
  rcases hh with hh | hh | hh | hh
  · exact .inr hh
  · exact .inl (hi.halting (.inl hh))
  · exact .inl (hi.halting (.inr (.inl hh)))
  · exact .inl (hi.halting (.inr (.inr (.inl hh))))

/-! ### One step -/

/-- A cycle that does not fail keeps the invariant. -/
theorem StepKind.keeps_inv {s t : State} (h : StepKind s t) (hi : s.Inv) (hl : s.Live) (hf : t.failed = none) :
    t.Inv := by
  obtain ⟨-, hx, -, hwb, hlcr, -, -, hmemory, hpar, -⟩ := h.older hf
  obtain ⟨wex, wmem, wwb⟩ := h.keeps_stageWf hi hf
  have hstage : ∀ st ∈ [t.ex, t.mem, t.wb], StageWf t.params.opc st := by simp [wex, wmem, wwb]
  exact
    { launchWf := by rw [hmemory, hpar]; exact hi.launchWf
      zero := by simpa only [hx, committedRegs_entry_zero] using hi.zero
      lcr := fun hv hw => by
        rw [hwb] at hv hw ⊢
        rw [hlcr, hpar, nextLcr_eq, if_pos ⟨hv, hw⟩]
      lcrIdle := fun hidle => by
        rw [hwb] at hidle
        rw [hlcr, nextLcr_eq, if_neg hidle]
      opc := ⟨wex.known, wmem.known, wwb.known⟩
      intent := fun st hst => (hstage st hst).intent
      bubbles := fun st hst => (hstage st hst).bubble
      redirected := h.keeps_redirected hi hf
      redirectCause := h.keeps_redirectCause hi hf
      latched := h.keeps_latched hi hf
      stopped := h.keeps_stopped hi hl hf
      halting := h.keeps_halting hi hf
      noViolation := fun a b hc => by rw [hf] at hc; cases hc }

/-- No failure of a core in the invariant is a `HazardPolicyViolation`: `P_LCR` excludes it (R114, R133). -/
theorem FailureSource.ne_violation {s : State} {f : Fault} (h : FailureSource s f) (hi : s.Inv) (a b : RegIdx) :
    f ≠ .hazardPolicyViolation a b := by
  cases h with
  | load _ _ => simp
  | fetch _ _ => simp
  | opcode op _ _ => simp
  | query i r f _ _ hq => exact absurd hq (query_ok_of_pLcr hi.lcr r f)

/-- Recording a failure keeps the invariant, whose only clause on `failed` is the last. -/
theorem inv_raise {s : State} {f : Fault} (hi : s.Inv) (hf : ∀ a b, f ≠ .hazardPolicyViolation a b) :
    (raise f s).Inv :=
  { launchWf := hi.launchWf, zero := hi.zero, lcr := hi.lcr, lcrIdle := hi.lcrIdle, opc := hi.opc
    intent := hi.intent, bubbles := hi.bubbles, redirected := hi.redirected, redirectCause := hi.redirectCause
    latched := hi.latched, stopped := hi.stopped, halting := hi.halting
    noViolation := fun a b hc => hf a b (Option.some.inj hc) }

/-- A cycle of a live core fails or leaves `failed` empty. -/
theorem StepKind.fails_or_failed_none {s t : State} (h : StepKind s t) (hl : s.Live) :
    (∃ f, FailureSource s f ∧ t = raise f s) ∨ t.failed = none := by
  cases h with
  | fails f hsrc => exact .inl ⟨f, hsrc, rfl⟩
  | waits _ _ => exact .inr hl.1
  | empty _ _ => exact .inr hl.1
  | issues _ _ _ _ _ _ _ => exact .inr hl.1

/-- Settles O39: a halted core stays, a failing cycle records a failure that is no violation, and any other cycle
keeps the invariant clause by clause. -/
theorem stepKeepsInv : Obligations.StepKeepsInv := by
  intro s t hi hs
  rcases step_next hs with ⟨-, -, rfl⟩ | ⟨hl, hk⟩
  · exact hi
  · rcases hk.fails_or_failed_none hl with ⟨f, hsrc, rfl⟩ | hf
    · exact inv_raise hi (hsrc.ne_violation hi)
    · exact hk.keeps_inv hi hl hf

/-! ### Whole runs -/

/-- Every state of a run from a state in the invariant is in it. -/
theorem State.Inv.run {n : Nat} {s t : State} (hi : s.Inv) (h : run n s = .next t) : t.Inv := by
  induction n generalizing s with
  | zero => cases h; exact hi
  | succ n ih =>
    obtain ⟨u, hu, ht⟩ := run_succ_next.1 h
    exact ih (stepKeepsInv s u hi hu) ht

/-- The fault a run answers is the failure recorded in a state it reaches. -/
theorem exists_failed_of_run_fault {n : Nat} {s : State} {f : Fault} (h : run n s = .fault f) :
    ∃ m u, run m s = .next u ∧ u.failed = some f := by
  induction n generalizing s with
  | zero => cases h
  | succ n ih =>
    rcases run_succ_fault.1 h with hs | ⟨u, hu, hr⟩
    · exact ⟨0, s, rfl, step_fault_iff.1 hs⟩
    · obtain ⟨m, w, hw, hf⟩ := ih hr
      exact ⟨m + 1, w, run_succ_next.2 ⟨u, hu, hw⟩, hf⟩

/-- Settles O40: the failure would be recorded in a reached state, which the invariant excludes. -/
theorem noRunRaisesAViolation : Obligations.NoRunRaisesAViolation := by
  intro l n a b hwf hfault
  obtain ⟨m, u, hu, hf⟩ := exists_failed_of_run_fault hfault
  exact ((inv_launch hwf).run hu).noViolation a b hf

end Sys2Proof.Machine
end

section
/-! The images and the model arguments along a run (R33, R38, R44): no step changes them, so no run does. -/

namespace Sys2Proof.Machine

/-- What every step keeps, every run keeps. -/
theorem run_keeps {P : State → Prop} (hstep : ∀ u v, step u = .next v → P u → P v) {n : Nat} {s t : State}
    (h : run n s = .next t) (hs : P s) : P t := by
  induction n generalizing s with
  | zero => cases h; exact hs
  | succ n ih =>
    obtain ⟨u, hu, ht⟩ := run_succ_next.1 h
    exact ih ht (hstep s u hu hs)

/-- A halted core stays as it is, and no cycle of a live core changes the images or the model arguments. -/
theorem step_memory_params {s t : State} (h : step s = .next t) : t.memory = s.memory ∧ t.params = s.params := by
  rcases step_next h with ⟨-, -, rfl⟩ | ⟨hl, -⟩
  · exact ⟨rfl, rfl⟩
  · obtain ⟨d, hd⟩ := step_live hl
    cases hd.symm.trans h
    exact ⟨finishCycle_memory d s, finishCycle_params d s⟩

theorem run_memory_params {n : Nat} {s t : State} (h : run n s = .next t) :
    t.memory = s.memory ∧ t.params = s.params := by
  refine run_keeps (P := fun u => u.memory = s.memory ∧ u.params = s.params) ?_ h ⟨rfl, rfl⟩
  rintro u v huv ⟨hum, hup⟩
  obtain ⟨hm, hp⟩ := step_memory_params huv
  exact ⟨hm.trans hum, hp.trans hup⟩

/-- Settles O42: a fetch and a load read the images only, and a run ends with the images it began with. -/
theorem imagesNeverChange : Obligations.ImagesNeverChange := by
  intro n s t h
  obtain ⟨hm, hp⟩ := run_memory_params h
  rw [hm]
  exact ⟨fun _ => rfl, fun _ => rfl, rfl, hp⟩

end Sys2Proof.Machine
end

section
/-! The instruction word (R48 to R54): the five fields and the word determine each other, and under an injective
opcode map so do the known words and the instructions. -/

namespace Sys2Proof

/-! ### The fields and the word (R48, R49): every bit of the word lies in one field, at one place -/

theorem toWord_decodeFields (w : Word) : (decodeFields w).toWord = w := by
  simp only [decodeFields, Fields.toWord]
  ext i hi
  simp only [BitVec.getElem_append, BitVec.getElem_extractLsb']
  grind

theorem decodeFields_toWord (f : Fields) : decodeFields f.toWord = f := by
  obtain ⟨opcode, rd, rs, rt, imm⟩ := f
  simp only [decodeFields, Fields.toWord, Fields.mk.injEq]
  refine ⟨?_, ?_, ?_, ?_, ?_⟩ <;>
  · ext i hi
    simp only [BitVec.getElem_extractLsb', BitVec.getLsbD_append]
    grind

/-! ### The fields and the instruction (R50, R54) -/

theorem Opc.known_iff {o : Opc} {op : Opcode} :
    o.known op = true ↔ op = o.addi ∨ op = o.subi ∨ op = o.lw ∨ op = o.beq ∨ op = o.blt ∨ op = o.jal ∨ op = o.halt := by
  simp [Opc.known, Opc.numbers]

/-- The value of an instruction stands for that instruction: the map's numbers being distinct, no earlier row of
R50's table takes it. -/
theorem Fields.instr?_fields {o : Opc} (h : o.wf = true) (i : Instr) : (i.fields o).instr? o = some i := by
  obtain ⟨⟨addi_subi, addi_lw, addi_beq, addi_blt, addi_jal, addi_halt⟩,
    ⟨subi_lw, subi_beq, subi_blt, subi_jal, subi_halt⟩, ⟨lw_beq, lw_blt, lw_jal, lw_halt⟩,
    ⟨beq_blt, beq_jal, beq_halt⟩, ⟨blt_jal, blt_halt⟩, jal_halt⟩ := Opc.distinct h
  cases i with
  | addi rd rs rt imm => simp [Instr.fields, Fields.instr?]
  | subi rd rs rt imm => simp [Instr.fields, Fields.instr?, addi_subi.symm]
  | lw rd rs rt imm => simp [Instr.fields, Fields.instr?, addi_lw.symm, subi_lw.symm]
  | beq rd rs rt imm => simp [Instr.fields, Fields.instr?, addi_beq.symm, subi_beq.symm, lw_beq.symm]
  | blt rd rs rt imm =>
    simp [Instr.fields, Fields.instr?, addi_blt.symm, subi_blt.symm, lw_blt.symm, beq_blt.symm]
  | jal rd rs rt imm =>
    simp [Instr.fields, Fields.instr?, addi_jal.symm, subi_jal.symm, lw_jal.symm, beq_jal.symm, blt_jal.symm]
  | halt rd rs rt imm =>
    simp [Instr.fields, Fields.instr?, addi_halt.symm, subi_halt.symm, lw_halt.symm, beq_halt.symm, blt_halt.symm,
      jal_halt.symm]

/-- Each row of R50's table keeps every field and takes its own number only. -/
theorem Fields.fields_of_instr? {o : Opc} {f : Fields} {i : Instr} (h : f.instr? o = some i) : i.fields o = f := by
  unfold Fields.instr? at h
  split_ifs at h with hop hop hop hop hop hop hop <;> cases h <;> rw [Instr.fields, ← hop]

theorem Fields.instr?_eq_none_iff {o : Opc} {f : Fields} : f.instr? o = none ↔ o.known f.opcode = false := by
  rw [← Bool.not_eq_true, Opc.known_iff]
  unfold Fields.instr?
  split_ifs <;> simp_all

/-! ### The word and the instruction (R49, R50, R54) -/

theorem decode_eq_ok_iff {o : Opc} {w : Word} {i : Instr} :
    decode o w = .ok i ↔ (decodeFields w).instr? o = some i := by
  unfold decode
  cases (decodeFields w).instr? o <;> simp

theorem decode_encode {o : Opc} (h : o.wf = true) (i : Instr) : decode o (encode o i) = .ok i := by
  rw [decode_eq_ok_iff, encode, decodeFields_toWord, Fields.instr?_fields h]

theorem encode_of_decode {o : Opc} {w : Word} {i : Instr} (h : decode o w = .ok i) : encode o i = w := by
  rw [encode, Fields.fields_of_instr? (decode_eq_ok_iff.1 h), toWord_decodeFields]

theorem decode_of_unknown {o : Opc} {w : Word} (h : o.known (decodeFields w).opcode = false) :
    decode o w = .error (.unknownOpcode (decodeFields w).opcode) := by
  simp [decode, Fields.instr?_eq_none_iff.2 h]

/-- A decoded word is that of an instruction, whose opcode is in the map. -/
theorem exists_decode_iff_known {o : Opc} {w : Word} :
    (∃ i, decode o w = .ok i) ↔ o.known (decodeFields w).opcode = true := by
  simp [decode_eq_ok_iff, ← Option.isSome_iff_exists, ← Option.ne_none_iff_isSome, Fields.instr?_eq_none_iff]

/-- Settles O2: the fields and the word determine each other, and so do the instruction and its fields. -/
theorem decodeAndEncodeAgree : Obligations.DecodeAndEncodeAgree :=
  fun _ h => ⟨decode_encode h, fun _ _ => encode_of_decode⟩

/-- Settles O1: one half of the round trips that O2 is assembled from. -/
theorem decodeLosesNoBit : Obligations.DecodeLosesNoBit :=
  ⟨fun _ => rfl, toWord_decodeFields, decodeFields_toWord⟩

/-- Settles O4: the assembler's words are computed, and the decoder reads back what was encoded. -/
theorem workedEncodings : Obligations.WorkedEncodings := by
  refine ⟨fun p hp => ?_, decode_of_unknown (by decide)⟩
  have henc : encode .reference p.1 = p.2 := by
    revert p
    decide
  exact ⟨henc, henc ▸ decode_encode (by decide) p.1⟩

end Sys2Proof
end

section
/-! A word with an unknown opcode (R54, R86, R119). -/

namespace Sys2Proof.Machine

theorem resolveBranch_unknown {o : Opc} {f : Fields} (va vb : Word) (pc : Addr) (h : o.known f.opcode = false) :
    resolveBranch o f va vb pc = .error (.encodingError f.opcode) := by
  simp [resolveBranch, h]

theorem presented_of_unknown {s : State} (hv : s.ifid.valid = true) (hoob : s.ifid.oob = false)
    (h : s.params.opc.known (decodeFields s.ifid.word).opcode = false) :
    presented s = .unknown (decodeFields s.ifid.word).opcode := by
  simp [presented, hv, hoob, decode_of_unknown h]

/-- No older load failing, the word in decode is what fails (R123). -/
theorem failingDecode_of_ready {s : State} (h : s.MemoryStageReady) (f : Fault) : failingDecode f s = raise f s := by
  simp [failingDecode, finishCycle, memInput_of_ready h]

theorem step_of_unknown {s : State} {op : Opcode} (hl : s.Live) (hm : s.MemoryStageReady)
    (hp : presented s = .unknown op) : step s = .next (raise (.encodingError op) s) := by
  obtain ⟨hfailed, hhalted⟩ := hl
  simp [step, hfailed, hhalted, hp, failingDecode_of_ready hm]

/-- The default numbers are 0 to 6 (R50). -/
theorem known_reference_eq_false_iff (op : Opcode) : Opc.reference.known op = false ↔ 0x07 ≤ op.toNat := by
  rw [← Bool.not_eq_true, Opc.known_iff]
  simp only [Opc.reference]
  bv_omega

/-- Settles O3: the map's numbers are what the decoder, the resolver and the core test, and the default ones are
0 to 6. -/
theorem unknownOpcodeRaisesEncodingError : Obligations.UnknownOpcodeRaisesEncodingError :=
  ⟨fun _ _ => exists_decode_iff_known, fun _ _ => decode_of_unknown,
    fun _ _ va vb pc => resolveBranch_unknown va vb pc,
    fun _ hl hm hv hoob h => step_of_unknown hl hm (presented_of_unknown hv hoob h),
    known_reference_eq_false_iff⟩

end Sys2Proof.Machine
end

section
/-! The fields an instruction ignores (R53): two instructions that agree in what decode, the branch resolver and
the later stages read make the same cycle. -/

namespace Sys2Proof.Machine

open Sys2Proof.Machine.State

/-- `i` and `j` agree, in decode of `s`, in everything the rules read of the instruction there (R53, R55, R117 to
R120), and with write intent in the destination (R60). -/
structure SameUsedFields (s : State) (i j : Instr) : Prop where
  portA : i.portA = j.portA
  portB : i.portB = j.portB
  regWrite : i.regWrite = j.regWrite
  issueValue : Instr.issueValue s i = Instr.issueValue s j
  stops : Instr.stops i = Instr.stops j
  redirect : redirectOf s i = redirectOf s j
  opcode : (i.fields s.params.opc).opcode = (j.fields s.params.opc).opcode
  destination : i.regWrite = true →
    effectiveDestination s.params.opc (i.fields s.params.opc) = effectiveDestination s.params.opc (j.fields s.params.opc)

theorem State.SameButIgnored.refl (t : State) : SameButIgnored (.next t) (.next t) :=
  ⟨t, t, rfl, rfl, rfl, rfl, fun _ => rfl⟩

/-- Whether the operands fail, stall or are ready is one and the same for both; ready, both issue, into stage
registers that differ in the instruction value alone. -/
theorem SameUsedFields.exec {s : State} {i j : Instr} (h : SameUsedFields s i j) :
    SameButIgnored (exec i s) (exec j s) := by
  obtain ⟨hA, hB, hw, hres, hstop, hfr, hop, hdest⟩ := h
  rw [exec_eq, exec_eq]
  cases hi : readOperands s i.portA i.portB with
  | fails f =>
    rw [decodeOf_fails hi, decodeOf_fails (hA ▸ hB ▸ hi)]
    exact .refl _
  | stalls =>
    rw [decodeOf_stalls hi, decodeOf_stalls (hA ▸ hB ▸ hi)]
    exact .refl _
  | ready va vb =>
    rw [decodeOf_ready hi, decodeOf_ready (hA ▸ hB ▸ hi), hfr, hstop]
    rcases memInput_cases s with ⟨-, -, hm⟩ | ⟨-, hm⟩ <;> simp only [finishCycle, hm]
    · exact .refl _
    · refine ⟨_, _, rfl, rfl, ?_, hop, hdest⟩
      simp [fetchStage, shiftStages, issuedStage, hw, hres]

/-- Under an injective map a `HALT` is no control transfer, so its `imm` is not read. -/
theorem redirectOf_halt {s : State} (h : s.params.opc.wf = true) (rd rs rt : RegIdx) (imm : Imm) (va vb : Word) :
    redirectOf s (.halt rd rs rt imm) va vb = sequentialNext s := by
  obtain ⟨-, -, -, ⟨-, -, hbeq⟩, ⟨-, hblt⟩, hjal⟩ := Opc.distinct h
  simp [redirectOf, taken, Instr.fields, Opc.isBeq, Opc.isBlt, Opc.isJal, hbeq.symm, hblt.symm, hjal.symm,
    sequentialNext]

theorem effectiveDestination_jal (o : Opc) (rd rs rt : RegIdx) (imm : Imm) :
    effectiveDestination o ((Instr.jal rd rs rt imm).fields o) = linkReg := by
  simp [effectiveDestination, Instr.fields, Opc.isJal]

/-- Settles O5: every instruction agrees with itself under other ignored fields, a `HALT` only where it is no
control transfer. -/
theorem unusedFieldsHaveNoEffect : Obligations.UnusedFieldsHaveNoEffect := by
  intro s rd rs rt rd' rs' rt' imm imm'
  refine ⟨?addi, ?subi, ?lw, ?beq, ?blt, ?jal, fun hwf => ?halt⟩ <;> apply SameUsedFields.exec
  case addi => exact ⟨rfl, rfl, rfl, rfl, rfl, rfl, rfl, fun _ => rfl⟩
  case subi => exact ⟨rfl, rfl, rfl, rfl, rfl, rfl, rfl, fun _ => rfl⟩
  case lw => exact ⟨rfl, rfl, rfl, rfl, rfl, rfl, rfl, fun _ => rfl⟩
  case beq => exact ⟨rfl, rfl, rfl, rfl, rfl, rfl, rfl, fun hw => nomatch hw⟩
  case blt => exact ⟨rfl, rfl, rfl, rfl, rfl, rfl, rfl, fun hw => nomatch hw⟩
  case jal => exact ⟨rfl, rfl, rfl, rfl, rfl, rfl, rfl, fun _ => by simp only [effectiveDestination_jal]⟩
  case halt =>
    have hfr : redirectOf s (.halt rd rs rt imm) = redirectOf s (.halt rd' rs' rt' imm') := by
      funext va vb
      simp only [redirectOf_halt hwf]
    exact ⟨rfl, rfl, rfl, rfl, rfl, hfr, rfl, fun hw => nomatch hw⟩

end Sys2Proof.Machine
end

section
/-! The forwarding unit (R60 to R79): its sub-blocks as functions of the stage hits, and when a query stalls, fails
or finds nothing. -/

namespace Sys2Proof.Machine

open Sys2Proof.Machine.State

/-! ### Destinations (R60) -/

theorem effectiveDestination_of_not_isJal {o : Opc} {f : Fields} (h : o.isJal f.opcode = false) :
    effectiveDestination o f = f.rd := by
  simp [effectiveDestination, h]

theorem isJal_eq_false_of_unknown {o : Opc} {op : Opcode} (h : o.known op = false) : o.isJal op = false := by
  refine Bool.eq_false_iff.2 fun hj => ?_
  obtain rfl : op = o.jal := by simpa [Opc.isJal] using hj
  simp [Opc.known, Opc.numbers] at h

/-- Under an injective map no load is a jump-and-link (R71). -/
theorem isJal_eq_false_of_isLoad {o : Opc} (h : o.wf = true) {op : Opcode} (hl : o.isLoad op = true) :
    o.isJal op = false :=
  (Bool.or_eq_false_iff.1 (isControl_of_isLoad h hl)).2

theorem effectiveDestination_of_isLoad {o : Opc} (h : o.wf = true) {f : Fields} (hl : o.isLoad f.opcode = true) :
    effectiveDestination o f = f.rd :=
  effectiveDestination_of_not_isJal (isJal_eq_false_of_isLoad h hl)

/-- Settles O6: whether `rd` is overridden is the opcode's class alone, which only the jump-and-link has. -/
theorem effectiveDestinationOverridesForJal : Obligations.EffectiveDestinationOverridesForJal := by
  refine fun o h => ⟨effectiveDestination_jal o, fun i hi => ?_, fun f hf =>
    effectiveDestination_of_not_isJal (isJal_eq_false_of_unknown hf)⟩
  rw [effectiveDestination_fields h]
  cases i with
  | jal rd rs rt imm => exact absurd rfl (hi rd rs rt imm)
  | _ => rfl

/-! ### The stage hits -/

theorem stageHit_ne_zero {o : Opc} {r : RegIdx} {st : Stage} (h : stageHit o r st = true) : r ≠ 0#4 :=
  (stageHit_iff.1 h).2.2.2

/-- A load hits with its `rd` field (R71). -/
theorem stageHit_iff_of_isLoad {o : Opc} (h : o.wf = true) {r : RegIdx} {st : Stage}
    (hl : o.isLoad st.instr.opcode = true) :
    stageHit o r st = true ↔ st.valid = true ∧ st.regWrite = true ∧ st.instr.rd = r ∧ r ≠ 0#4 := by
  rw [stageHit_iff, effectiveDestination_of_isLoad h hl]

theorem stageHit_eq_false_iff {o : Opc} {r : RegIdx} {st : Stage} (hr : r ≠ 0#4) :
    stageHit o r st = false ↔
      (st.valid = true → st.regWrite = true → effectiveDestination o st.instr ≠ r) := by
  rw [← Bool.not_eq_true, stageHit_iff]
  tauto

theorem wbBad_iff {o : Opc} {wb : Stage} {lcr : RegIdx} :
    wbBad o wb lcr = true ↔
      wb.valid = true ∧ wb.regWrite = true ∧ lcr ≠ effectiveDestination o wb.instr := by
  simp [wbBad, and_assoc]

/-- What `P_LCR` (R23) says of one `WB` and one `lcr`. -/
theorem wbBad_eq_false_iff {o : Opc} {wb : Stage} {lcr : RegIdx} :
    wbBad o wb lcr = false ↔
      (wb.valid = true → wb.regWrite = true → lcr = effectiveDestination o wb.instr) := by
  rw [← Bool.not_eq_true, wbBad_iff]
  tauto

/-- With a consistent `lcr` the hit in `WB` is that of its instruction (R22, R61). -/
theorem wbHit_eq_stageHit {o : Opc} {wb : Stage} {lcr : RegIdx} (h : wbBad o wb lcr = false) (r : RegIdx) :
    wbHit r wb lcr = stageHit o r wb := by
  rw [wbBad_eq_false_iff] at h
  rw [Bool.eq_iff_iff, wbHit_iff, stageHit_iff]
  constructor
  · rintro ⟨hv, hw, hd, hr⟩
    exact ⟨hv, hw, h hv hw ▸ hd, hr⟩
  · rintro ⟨hv, hw, hd, hr⟩
    exact ⟨hv, hw, (h hv hw).trans hd, hr⟩

/-! ### When a query stalls, fails, finds nothing -/

/-- Settles O8: register 0 is the first case of a query. -/
theorem registerZeroResolvesToZero : Obligations.RegisterZeroResolvesToZero := by
  intro o ex mem wb lcr
  rw [resolve_eq, if_pos rfl]

section
variable {o : Opc} {r : RegIdx} {ex mem wb : Stage} {lcr : RegIdx}

theorem resolve_of_ex_hit (he : stageHit o r ex = true) (hl : o.isLoad ex.instr.opcode = false) :
    resolve o r ex mem wb lcr = .ok (.value (stageValue o ex)) := by
  simp [resolve_eq, stageHit_ne_zero he, he, hl]

theorem resolve_of_mem_hit (he : stageHit o r ex = false) (hm : stageHit o r mem = true) :
    resolve o r ex mem wb lcr = .ok (.value (stageValue o mem)) := by
  simp [resolve_eq, stageHit_ne_zero hm, he, hm]

theorem resolve_eq_stall_iff :
    resolve o r ex mem wb lcr = .ok .stallRequired ↔ stageHit o r ex = true ∧ o.isLoad ex.instr.opcode = true := by
  constructor
  · intro h
    rw [resolve_eq] at h
    split_ifs at h with hr he hl hm hb hw <;> cases h
    exact ⟨he, hl⟩
  · rintro ⟨he, hl⟩
    simp [resolve_eq, stageHit_ne_zero he, he, hl]

theorem resolve_eq_error_iff {f : Fault} :
    resolve o r ex mem wb lcr = .error f ↔
      r ≠ 0#4 ∧ stageHit o r ex = false ∧ stageHit o r mem = false ∧ wbBad o wb lcr = true ∧
      f = .hazardPolicyViolation lcr (effectiveDestination o wb.instr) := by
  constructor
  · intro h
    rw [resolve_eq] at h
    split_ifs at h with hr he hl hm hb
    cases h
    exact ⟨hr, Bool.eq_false_iff.2 he, Bool.eq_false_iff.2 hm, hb, rfl⟩
  · rintro ⟨hr, he, hm, hb, rfl⟩
    simp [resolve_eq, hr, he, hm, hb]

theorem resolve_eq_notFound_iff :
    resolve o r ex mem wb lcr = .ok .notFound ↔
      r ≠ 0#4 ∧ stageHit o r ex = false ∧ stageHit o r mem = false ∧ wbBad o wb lcr = false ∧
      stageHit o r wb = false := by
  constructor
  · intro h
    rw [resolve_eq] at h
    split_ifs at h with hr he hl hm hb hw <;> cases h
    have hb' : wbBad o wb lcr = false := Bool.eq_false_iff.2 hb
    rw [wbHit_eq_stageHit hb'] at hw
    exact ⟨hr, Bool.eq_false_iff.2 he, Bool.eq_false_iff.2 hm, hb', Bool.eq_false_iff.2 hw⟩
  · rintro ⟨hr, he, hm, hb, hw⟩
    simp [resolve_eq, hr, he, hm, hb, wbHit_eq_stageHit hb, hw]

/-- Nothing found is: no stage will write the register, and `P_LCR` holds (R23, R75). -/
theorem resolve_eq_notFound_iff_no_writer :
    resolve o r ex mem wb lcr = .ok .notFound ↔
      r ≠ 0#4 ∧ (wb.valid = true → wb.regWrite = true → lcr = effectiveDestination o wb.instr) ∧
      ∀ st ∈ [ex, mem, wb], st.valid = true → st.regWrite = true → effectiveDestination o st.instr ≠ r := by
  rw [resolve_eq_notFound_iff]
  refine and_congr_right fun hr => ?_
  simp only [List.forall_mem_cons, stageHit_eq_false_iff hr, wbBad_eq_false_iff]
  simp only [List.not_mem_nil, false_imp_iff, implies_true, and_true]
  tauto

/-- A writer in `WB` whose register no younger stage writes is answered under `P_LCR`, and reported without it. -/
theorem resolve_of_wb_write (he : stageHit o r ex = false) (hm : stageHit o r mem = false)
    (hw : stageHit o r wb = true) :
    resolve o r ex mem wb lcr =
      if lcr = r then .ok (.value (stageValue o wb)) else .error (.hazardPolicyViolation lcr r) := by
  obtain ⟨hv, hrw, hd, hr⟩ := stageHit_iff.1 hw
  by_cases hlcr : lcr = r
  · rw [if_pos hlcr]
    have hb : wbBad o wb lcr = false := wbBad_eq_false_iff.2 fun _ _ => hlcr.trans hd.symm
    simp [resolve_eq, hr, he, hm, hb, wbHit_eq_stageHit hb, hw]
  · rw [if_neg hlcr]
    have hb : wbBad o wb lcr = true := wbBad_iff.2 ⟨hv, hrw, hd ▸ hlcr⟩
    simp [resolve_eq, hr, he, hm, hb, hd]

end

/-- Settles O10, stage by stage: the authoritative field of a non-load is `alu_result`. -/
theorem priorityLaw : Obligations.PriorityLaw := by
  intro o r ex mem wb lcr _
  refine ⟨fun he hl => ?_, fun he hm hl => ?_, fun he hm hw hl => ?_⟩
  · simp [resolve_of_ex_hit he hl, stageValue, hl]
  · simp [resolve_of_mem_hit he hm, stageValue, hl]
  · simp [resolve_of_wb_write he hm hw, stageValue, hl]

/-- Settles O12: the condition for `NotFound` read both ways; the operand is then the register. -/
theorem notFoundMeansNoWriterInFlight : Obligations.NotFoundMeansNoWriterInFlight := by
  refine ⟨fun o r ex mem wb lcr h => ?_, fun o r ex mem wb lcr hr hlcr hst => ?_, fun s r h => ?_⟩
  · obtain ⟨hr, -, hst⟩ := resolve_eq_notFound_iff_no_writer.1 h
    exact ⟨hr, hst⟩
  · exact resolve_eq_notFound_iff_no_writer.2 ⟨hr, hlcr, hst⟩
  · simp [operandNow, h, operandValue]

/-! ### The failure of a query ends the run (R123, R138) -/

theorem readOperands_of_portA_error {s : State} {ra : RegIdx} {f : Fault} (h : query s ra = .error f) (rb : RegIdx) :
    readOperands s ra rb = .fails f := by
  simp [readOperands, h]

theorem step_of_readOperands_fails {s : State} {i : Instr} {f : Fault} (hl : s.Live) (hm : s.MemoryStageReady)
    (hp : presented s = .instruction i) (hf : readOperands s i.portA i.portB = .fails f) :
    step s = .next (raise f s) := by
  obtain ⟨hfailed, hhalted⟩ := hl
  simp [step, hfailed, hhalted, hp, exec_eq, decodeOf_fails hf, finishCycle, memInput_of_ready hm]

theorem run_succ_raise (n : Nat) (f : Fault) (s : State) : run (n + 1) (raise f s) = .fault f :=
  run_succ_fault.2 (.inl (step_fault_iff.2 rfl))

/-- Settles O11: step 3 is where a query fails, and a failing query of port A is the failure of its cycle. -/
theorem writebackMismatchIsReported : Obligations.WritebackMismatchIsReported := by
  refine ⟨fun o r ex mem wb lcr f => ?_, fun s i f hl hm hp hq => ⟨?_, fun n => run_succ_raise n f s⟩⟩
  · simp only [resolve_eq_error_iff, wbBad_iff, and_assoc]
  · exact step_of_readOperands_fails hl hm hp (readOperands_of_portA_error hq i.portB)

/-! ### The priority encoder (R61, R63, R65) -/

/-- Settles O7, by the youngest stage that hits. -/
theorem encoderSelectsYoungestHit : Obligations.EncoderSelectsYoungestHit := by
  intro hitEx hitMem hitWb
  cases hitEx with
  | true => rfl
  | false =>
    cases hitMem with
    | true => rfl
    | false => cases hitWb <;> rfl

section
variable (o : Opc) (r : RegIdx) (ex mem wb : Stage) (lcr : RegIdx)

theorem selFor_eq :
    selFor o r ex mem wb lcr =
      if stageHit o r ex then .ex else if stageHit o r mem then .mem else if wbHit r wb lcr then .wb else .none := rfl

theorem selFor_beq_ex : (selFor o r ex mem wb lcr == .ex) = stageHit o r ex := by
  rw [selFor_eq]
  split_ifs with he hm hw
  · exact he.symm
  all_goals exact (Bool.eq_false_iff.2 he).symm

/-- `fwd_sel` (R78). -/
theorem code_selFor :
    (selFor o r ex mem wb lcr).code =
      if stageHit o r ex = true then 1#2 else if stageHit o r mem = true then 2#2
      else if wbHit r wb lcr = true then 3#2 else 0#2 := by
  simp only [selFor_eq, apply_ite Sel.code]
  rfl

/-! ### The detector and the multiplexer on the encoder's choice (R68, R71) -/

theorem loadUse_selFor :
    loadUse o (selFor o r ex mem wb lcr) (r == 0#4) ex = (stageHit o r ex && o.isLoad ex.instr.opcode) := by
  rw [loadUse, selFor_beq_ex]
  cases he : stageHit o r ex
  · simp
  · simp [stageHit_ne_zero he]

/-- The detector is right (R71). -/
theorem loadUse_selFor_iff :
    loadUse o (selFor o r ex mem wb lcr) (r == 0#4) ex = true ↔ resolve o r ex mem wb lcr = .ok .stallRequired := by
  rw [loadUse_selFor, resolve_eq_stall_iff, Bool.and_eq_true]

theorem forwardMux_selFor :
    forwardMux o (selFor o r ex mem wb lcr) (r == 0#4) ex mem wb =
      if r = 0#4 then some 0#32
      else if stageHit o r ex then
        if o.isLoad ex.instr.opcode then none else some (stageValue o ex)
      else if stageHit o r mem then some (stageValue o mem)
      else if wbHit r wb lcr then some (stageValue o wb)
      else none := by
  rw [selFor_eq]
  by_cases hr : r = 0#4
  · simp [forwardMux, hr]
  cases he : stageHit o r ex with
  | true => cases hl : o.isLoad ex.instr.opcode <;> simp [forwardMux, hr, hl, stageValue]
  | false =>
    cases hm : stageHit o r mem with
    | true => simp [forwardMux, hr]
    | false => cases hw : wbHit r wb lcr <;> simp [forwardMux, hr]

end

/-- A query's value is what the multiplexer gives (R68, R73). -/
theorem forwardMux_of_resolve_value {o : Opc} {r : RegIdx} {ex mem wb : Stage} {lcr : RegIdx} {v : Word}
    (h : resolve o r ex mem wb lcr = .ok (.value v)) :
    forwardMux o (selFor o r ex mem wb lcr) (r == 0#4) ex mem wb = some v := by
  rw [resolve_eq] at h
  rw [forwardMux_selFor]
  split_ifs at h ⊢ <;> cases h <;> rfl

/-- Settles O9: a stall is a hit of a load in `EX`, and a load's destination is its `rd`. -/
theorem onlyALoadInExecuteStalls : Obligations.OnlyALoadInExecuteStalls := by
  intro o h r ex mem wb lcr
  refine ⟨?_, loadUse_selFor_iff o r ex mem wb lcr, fun hr he hv hw hd hl => ?_⟩
  · rw [resolve_eq_stall_iff]
    constructor
    · rintro ⟨he, hl⟩
      obtain ⟨hv, hw, hd, hr⟩ := (stageHit_iff_of_isLoad h hl).1 he
      exact ⟨hr, hv, hw, hd, hl⟩
    · rintro ⟨hr, hv, hw, hd, hl⟩
      exact ⟨(stageHit_iff_of_isLoad h hl).2 ⟨hv, hw, hd, hr⟩, hl⟩
  · rw [resolve_of_mem_hit he ((stageHit_iff_of_isLoad h hl).2 ⟨hv, hw, hd, hr⟩)]
    simp [stageValue, hl]

/-- Settles O13: register 0, then a load in `EX`, then the multiplexer's stages, with step 3 before `WB`. -/
theorem subBlocksComputeResolve : Obligations.SubBlocksComputeResolve := by
  intro o r ex mem wb lcr
  simp only [resolveBlocks, loadUse_selFor, forwardMux_selFor, resolve_eq]
  by_cases hr : r = 0#4
  · simp [hr]
  cases he : stageHit o r ex with
  | true => cases hl : o.isLoad ex.instr.opcode <;> simp [hr, selFor_eq, he]
  | false =>
    cases hm : stageHit o r mem with
    | true => simp [hr, selFor_eq, he, hm]
    | false => cases hw : wbHit r wb lcr <;> simp [hr, selFor_eq, he, hm, hw]

/-! ### The ports (R78), one equation per answer of the query -/

section
variable {o : Opc} {r : RegIdx} {ex mem wb : Stage} {lcr : RegIdx}

theorem forwardPorts_of_notFound (h : resolve o r ex mem wb lcr = .ok .notFound) :
    forwardPorts o r ex mem wb lcr =
      { fwdKind := 0, fwdValue := none, fwdSel := (selFor o r ex mem wb lcr).code, stall := false, failCode := 0 } := by
  simp [forwardPorts, h]

theorem forwardPorts_of_value {v : Word} (h : resolve o r ex mem wb lcr = .ok (.value v)) :
    forwardPorts o r ex mem wb lcr =
      { fwdKind := 1, fwdValue := some v, fwdSel := (selFor o r ex mem wb lcr).code, stall := false
        failCode := 0 } := by
  simp [forwardPorts, h]

/-- A query that stalls has the encoder at `EX`. -/
theorem forwardPorts_of_stall (h : resolve o r ex mem wb lcr = .ok .stallRequired) :
    forwardPorts o r ex mem wb lcr =
      { fwdKind := 2, fwdValue := none, fwdSel := 1, stall := true, failCode := 0 } := by
  simp [forwardPorts, h, code_selFor, (resolve_eq_stall_iff.1 h).1]

/-- The failure of a query is the mismatch of `WB`, which has code 2 (R131). -/
theorem forwardPorts_of_error {f : Fault} (h : resolve o r ex mem wb lcr = .error f) :
    forwardPorts o r ex mem wb lcr =
      { fwdKind := 3, fwdValue := none, fwdSel := (selFor o r ex mem wb lcr).code, stall := false, failCode := 2 } := by
  obtain ⟨-, -, -, -, rfl⟩ := resolve_eq_error_iff.1 h
  simp [forwardPorts, h, Fault.code]

theorem forwardPorts_fwdSel : (forwardPorts o r ex mem wb lcr).fwdSel = (selFor o r ex mem wb lcr).code := by
  unfold forwardPorts
  split <;> rfl

end

/-- Settles O16, by the answer of the query; what stands on `fwd_sel` does not depend on it. -/
theorem forwardPortsAgree : Obligations.ForwardPortsAgree := by
  intro o r ex mem wb lcr p
  have hsel : p.fwdSel = (selFor o r ex mem wb lcr).code := forwardPorts_fwdSel
  have hcode := hsel.trans (code_selFor o r ex mem wb lcr)
  match h : resolve o r ex mem wb lcr with
  | .ok .notFound =>
    have hp : p = _ := forwardPorts_of_notFound h
    simpa [hp] using hcode
  | .ok (.value v) =>
    have hp : p = _ := forwardPorts_of_value h
    simpa [hp, forwardMux_of_resolve_value h] using hcode
  | .ok .stallRequired =>
    have hp : p = _ := forwardPorts_of_stall h
    simpa [hp] using And.intro hsel hcode
  | .error f =>
    have hp : p = _ := forwardPorts_of_error h
    simpa [hp] using hcode

end Sys2Proof.Machine
end

section
/-! The branch resolver and the fetch state machine (R83 to R95): what a cycle latches and where it fetches next,
when decode waits behind a load, and that a `HALT` in decode stops fetch for good. -/

namespace Sys2Proof.Machine

open Sys2Proof.Machine.State

/-! ### What the instruction in decode resolves to (R85, R89, R92) -/

/-- Settles O17: a state with the opcode map and the fetch address carries over what `redirectOf_eq` says of each
instruction; the two conditions are those of the values. -/
theorem branchResolverDecides : Obligations.BranchResolverDecides := by
  refine ⟨fun o i va vb pc h => ?_, fun o f va vb pc => resolveBranch_unknown va vb pc⟩
  have hfr := redirectOf_eq (s := { State.reset with pc := pc, params := { Params.reference with opc := o } }) h i va vb
  rw [resolveBranch_known va vb pc (Instr.known_fields o i)]
  refine congrArg Except.ok (hfr.trans ?_)
  cases i with
  | beq rd rs rt imm => simp only [condEqual_iff]
  | blt rd rs rt imm => simp only [condLess_iff]
  | _ => rfl

theorem redirectNow_of_nothing {s : State} (h : presented s = .nothing) : s.redirectNow = sequentialNext s := by
  simp [redirectNow, h]

/-- `fr` is `Sequential(pc + 1)` but for an instruction in decode that has its operands and redirects (R92). -/
theorem redirectNow_cases (s : State) :
    s.redirectNow = sequentialNext s ∨
    ∃ i va vb, presented s = .instruction i ∧ s.operandNow i.portA = some va ∧ s.operandNow i.portB = some vb ∧
      s.redirectNow = redirectOf s i va vb ∧ redirectOf s i va vb = .redirected (i.fields s.params.opc).imm := by
  cases hp : presented s with
  | nothing => exact .inl (redirectNow_of_nothing hp)
  | outOfImage a => exact .inl (by simp [redirectNow, hp])
  | unknown op => exact .inl (by simp [redirectNow, hp])
  | instruction i =>
    rcases readOperands_cases s i.portA i.portB with ⟨f, -, h⟩ | ⟨-, -, -, h⟩ | ⟨va, vb, ha, hb, h⟩
    · exact .inl (by simp [redirectNow, hp, h])
    · exact .inl (by simp [redirectNow, hp, h])
    · have hnow := redirectNow_ready hp h
      by_cases ht : taken s.params.opc (i.fields s.params.opc) va vb = true
      · exact .inr ⟨i, va, vb, rfl, ha, hb, hnow, if_pos ht⟩
      · exact .inl (hnow.trans (if_neg ht))

theorem sequential_of_redirectNow {s : State} {n : Addr} (h : s.redirectNow = .sequential n) : n = s.pc + 1#12 := by
  rcases redirectNow_cases s with hfr | ⟨i, va, vb, -, -, -, hfr, hre⟩
  · rw [hfr] at h
    cases h
    rfl
  · rw [hfr, hre] at h
    cases h

theorem haltInDecode_iff {s : State} {i : Instr} (h : presented s = .instruction i) :
    s.HaltInDecode ↔ Instr.stops i = true := by
  cases i <;> simp [HaltInDecode, h, Instr.stops]

theorem not_waits_of_ready {s : State} {i : Instr} {va vb : Word} (hp : presented s = .instruction i)
    (ha : s.operandNow i.portA = some va) (hb : s.operandNow i.portB = some vb) : ¬ s.Waits := by
  rintro ⟨j, hj, hst⟩
  cases hp.symm.trans hj
  simp [readOperands_ready ha hb] at hst

/-- A `HALT` requests no register (R105). -/
theorem not_waits_of_haltInDecode {s : State} (h : s.HaltInDecode) : ¬ s.Waits := by
  obtain ⟨rd, rs, rt, imm, hp⟩ := h
  exact not_waits_of_ready hp (operandNow_zero s) (operandNow_zero s)

/-- What redirects is a control transfer with its operands: it neither waits nor is a `HALT`. -/
theorem fetches_of_redirected {s : State} {a : Addr} (hwf : s.params.wf = true)
    (h : s.redirectNow = .redirected a) : ¬ s.Waits ∧ ¬ s.HaltInDecode := by
  rcases redirectNow_cases s with hfr | ⟨i, va, vb, hp, ha, hb, -, hre⟩
  · rw [hfr] at h
    cases h
  · refine ⟨not_waits_of_ready hp ha hb, ?_⟩
    rintro ⟨rd, rs, rt, imm, hp'⟩
    cases hp.symm.trans hp'
    rw [redirectOf_halt hwf] at hre
    cases hre

/-! ### A cycle of the fetch stage (R92, R121) -/

/-- A cycle that neither fails nor waits ends with the fetch stage, which follows `redirectNow`; the instruction in
decode stops it exactly when it is a `HALT` (R120). -/
theorem StepKind.eq_fetchStage {s t : State} (h : StepKind s t) (hf : t.failed = none) (hw : ¬ s.Waits) :
    ∃ ex' stop, (stop = true ↔ s.HaltInDecode) ∧
      t = fetchStage s s.redirectNow stop (shiftStages (memNext s) ex' s) := by
  cases h with
  | fails f _ => cases hf
  | waits _ hw' => exact absurd hw' hw
  | empty _ hp =>
    rw [redirectNow_of_nothing hp]
    exact ⟨.bubble, false, by simp [HaltInDecode, hp], rfl⟩
  | issues i va vb _ hp ha hb =>
    rw [redirectNow_ready hp (readOperands_ready ha hb)]
    exact ⟨issuedStage s i va, Instr.stops i, (haltInDecode_iff hp).symm, rfl⟩

/-- A fetch cycle latches the word at `pc`, and `pc`, `fs` and the last events are what `redirectNow` gives. -/
theorem StepKind.fetches {s t : State} (h : StepKind s t) (hf : t.failed = none) (hw : ¬ s.Waits)
    (hs : s.fetchStop = false) (hh : ¬ s.HaltInDecode) :
    t.fetchStop = false ∧ t.ifid = s.wordAtPc ∧ t.pc = s.redirectNow.addr ∧ t.fs = s.redirectNow.state ∧
      ∀ e ∈ redirectEvents s.cycle s.redirectNow, e ∈ t.events := by
  obtain ⟨ex', stop, hstop, rfl⟩ := h.eq_fetchStage hf hw
  obtain rfl : stop = false := Bool.eq_false_iff.2 (mt hstop.1 hh)
  simp +contextual [hs, fetchedWord_eq]

/-- Settles O19: the fetch cycle, by what `redirectNow` is. -/
theorem fetchCycleFollowsTheRedirect : Obligations.FetchCycleFollowsTheRedirect := by
  intro s t hl hstep hf hs hw hh
  obtain ⟨-, hifid, hpc, hfs, hev⟩ := (step_kind hl hstep).fetches hf hw hs hh
  refine ⟨hifid, ?_⟩
  cases hfr : s.redirectNow with
  | redirected a =>
    rw [hfr] at hpc hfs hev
    exact ⟨hpc, hfs, hev _ (List.mem_singleton_self _)⟩
  | sequential n =>
    rw [hfr] at hpc hfs
    refine ⟨?_, hpc, hfs⟩
    rw [sequential_of_redirectNow hfr, BitVec.toNat_add]
    rfl

/-- Settles O22: the deciding cycle is a fetch cycle, and so is the one after it, whose `pc` is the target. -/
theorem delaySlotThenTarget : Obligations.DelaySlotThenTarget := by
  intro s t u a hwf hl hstep hf hs hfr
  obtain ⟨hw, hh⟩ := fetches_of_redirected hwf hfr
  obtain ⟨hs', hifid, hpc, -, -⟩ := (step_kind hl hstep).fetches hf hw hs hh
  rw [hfr] at hpc
  refine ⟨hifid, by rw [hifid, wordAtPc_ipc], hpc, fun hhalt hw' hh' hstep' hf' => ?_⟩
  obtain ⟨-, hifid', hpc', -, -⟩ := (step_kind ⟨hf, hhalt⟩ hstep').fetches hf' hw' hs' hh'
  refine ⟨hifid', by rw [hifid', wordAtPc_ipc, hpc]; rfl, ?_⟩
  rw [hpc']
  cases hfr' : t.redirectNow with
  | redirected b => rfl
  | sequential n =>
    rw [sequential_of_redirectNow hfr', hpc]
    rfl

/-! ### Fetch stopped (R94, R120) -/

theorem step_keeps_fetch_stopped {s t : State} (h : step s = .next t) (hs : s.fetchStop = true) :
    t.fetchStop = true ∧ t.pc = s.pc ∧ t.fs = s.fs := by
  rcases step_next h with ⟨-, -, rfl⟩ | ⟨hl, -⟩
  · exact ⟨hs, rfl, rfl⟩
  · obtain ⟨d, hd⟩ := step_live hl
    cases hd.symm.trans h
    rcases finishCycle_frame d s with ⟨f, hraise⟩ | ⟨-, -, -, -, hstop⟩
    · rw [hraise]
      exact ⟨hs, rfl, rfl⟩
    · exact hstop hs

theorem run_keeps_fetch_stopped {n : Nat} {s t : State} (h : run n s = .next t) (hs : s.fetchStop = true) :
    t.fetchStop = true ∧ t.pc = s.pc ∧ t.fs = s.fs := by
  refine run_keeps (P := fun u => u.fetchStop = true ∧ u.pc = s.pc ∧ u.fs = s.fs) ?_ h ⟨hs, rfl, rfl⟩
  rintro u v huv ⟨hstop, hpc, hfs⟩
  obtain ⟨hstop', hpc', hfs'⟩ := step_keeps_fetch_stopped huv hstop
  exact ⟨hstop', hpc'.trans hpc, hfs'.trans hfs⟩

/-- The cycle in which a `HALT` is in decode stops fetch, with `pc` and `fs` held (R120). -/
theorem StepKind.stops_fetch {s t : State} (h : StepKind s t) (hf : t.failed = none) (hh : s.HaltInDecode) :
    t.fetchStop = true ∧ t.pc = s.pc ∧ t.fs = s.fs := by
  obtain ⟨ex', stop, hstop, rfl⟩ := h.eq_fetchStage hf (not_waits_of_haltInDecode hh)
  simp [hstop.2 hh]

/-- A run that ends without a failure had none on the way (R138). -/
theorem failed_none_of_run {n : Nat} {s t : State} (h : run n s = .next t) (hf : t.failed = none) :
    s.failed = none := by
  cases n with
  | zero => cases h; exact hf
  | succ n =>
    obtain ⟨u, hu, -⟩ := run_succ_next.1 h
    rcases step_next hu with ⟨hnone, -, -⟩ | ⟨hl, -⟩
    · exact hnone
    · exact hl.1

/-- Settles O21: fetch has stopped after the first cycle at the latest, and no later step starts it again. -/
theorem fetchStaysStopped : Obligations.FetchStaysStopped := by
  intro n s t hl _ hstop hrun hf
  rcases hstop with hs | hh
  · exact run_keeps_fetch_stopped hrun hs
  · obtain ⟨u, hu, hrest⟩ := run_succ_next.1 hrun
    obtain ⟨hs, hpc, hfs⟩ := (step_kind hl hu).stops_fetch (failed_none_of_run hrest hf) hh
    obtain ⟨hs', hpc', hfs'⟩ := run_keeps_fetch_stopped hrest hs
    exact ⟨hs', hpc'.trans hpc, hfs'.trans hfs⟩

/-! ### Stalls (R93, R116) -/

theorem step_of_waits {s : State} (hl : s.Live) (hm : s.MemoryStageReady) (hw : s.Waits) :
    step s = .next (shiftStages (memNext s) .bubble s) := by
  obtain ⟨hfailed, hhalted⟩ := hl
  obtain ⟨i, hp, hst⟩ := hw
  simp [step, hfailed, hhalted, hp, exec_eq, decodeOf_stalls hst, finishCycle, memInput_of_ready hm]

/-- A load whose address is in the image takes its word along (R115). -/
theorem memNext_of_load {s : State} (hm : s.MemoryStageReady) (hl : s.LoadInEx) :
    ∃ w, s.memory.dmem[s.ex.aluResult.toNat]? = some w ∧ memNext s = { s.ex with memData := w } := by
  have hlt : s.ex.aluResult.toNat < s.memory.dmem.length := hm hl
  exact ⟨_, List.getElem?_eq_getElem hlt, by simp [memNext, hl.1, hl.2, List.getD, hlt]⟩

/-- With a bubble in `EX` nothing waits: only a load there makes a query stall. -/
theorem not_waits_of_ex_bubble {s : State} (h : s.ex = .bubble) : ¬ s.Waits := by
  intro hw
  have hv := (waits_load hw).2.1
  rw [h] at hv
  cases hv

theorem redirect_not_mem_commitEvents (s : State) (c : Nat) (a : Addr) : Event.redirect c a ∉ commitEvents s := by
  rcases commit_cases s with ⟨-, -, h⟩ | ⟨-, -, h⟩ <;> simp [h]

/-- The register that stalled is the load's, which answers it from `MEM` in the next cycle (R71). -/
theorem query_after_stall {s t : State} {r : RegIdx} {w : Word} (hex : t.ex = .bubble)
    (hmem : t.mem = { s.ex with memData := w }) (hpar : t.params = s.params)
    (h : query s r = .ok .stallRequired) : query t r = .ok (.value w) := by
  obtain ⟨hhit, -, hload⟩ := query_stall h
  have hhit' : stageHit s.params.opc r { s.ex with memData := w } = true := hhit
  rw [query, hpar, hex, hmem, resolve_of_mem_hit (stageHit_idle rfl _ _) hhit']
  simp [stageValue, hload]

/-- Settles O20: the stalling cycle moves the load on into `MEM`, behind a bubble. -/
theorem stallHoldsFetchForOneCycle : Obligations.StallHoldsFetchForOneCycle := by
  intro s hl hm hw
  obtain ⟨-, hload⟩ := waits_load hw
  obtain ⟨w, hword, hmem⟩ := memNext_of_load hm hload
  refine ⟨_, w, step_of_waits hl hm hw, hl.1, rfl, rfl, rfl, rfl, rfl, hload, hword, hmem, rfl, nextLcr_eq s,
    fun c a hev => ?_, fun r => query_after_stall rfl hmem rfl, not_waits_of_ex_bubble rfl⟩
  rw [shiftStages_events, List.mem_append] at hev
  exact hev.resolve_right (redirect_not_mem_commitEvents s c a)

/-- Settles O41: a redirect being fetched has a control transfer in `EX`, a stall a load. -/
theorem noStallWhileRedirected : Obligations.NoStallWhileRedirected := by
  intro s hi hw
  cases hfs : s.fs with
  | sequential => rfl
  | redirected a => exact absurd hfs (not_redirected_of_waits hi hw a)

end Sys2Proof.Machine
end

section
/-! The control transfers (R96 to R99), and what serves every instruction that issues: the write-back of its stage
register three cycles later (R111, R112) and the value it forwards on the way (R20, R71). -/

namespace Sys2Proof.Machine

open Sys2Proof.Machine.State

/-! ### The instruction in write-back (R111, R112) -/

/-- The last of the three cycles commits the contents `EX` had, with the loaded word of a load. -/
theorem State.RetiresInto.commits {t u w : State} (h : RetiresInto t u w) :
    w.x = commitStage t.params.opc u.x (memNext t) ∧
    commitsOf w.events = commitsOf u.events ++ stageWrites t.params.opc (memNext t) := by
  obtain ⟨-, -, hl, hwb, hpar⟩ := h.inWb
  obtain ⟨-, -, hstep, hf⟩ := h
  obtain ⟨-, hx, -, -, -, -, -, -, -, rest, hev, hrest⟩ := (step_kind hl hstep).older hf
  rw [hx, hev, committedRegs_eq, ← hwb, ← hpar]
  simp [commitsOf_commitEvents, hrest]

theorem commitsNothing_of_no_write {t : State} (h : t.ex.regWrite = false) : CommitsNothing t := by
  intro u w hr
  obtain ⟨hx, hev⟩ := hr.commits
  have hidle : ¬ ((memNext t).valid = true ∧ (memNext t).regWrite = true) := by simp [h]
  rw [hx, hev, commitStage_idle hidle, stageWrites_idle hidle, List.append_nil]
  exact ⟨rfl, rfl⟩

/-- What a valid stage register with write intent commits: its value (R20, R112), to its effective destination. -/
theorem commitsTo_of_write {t : State} {d : RegIdx} {v : Word} (hv : t.ex.valid = true) (hw : t.ex.regWrite = true)
    (hd : effectiveDestination t.params.opc t.ex.instr = d) (hval : stageValue t.params.opc (memNext t) = v) :
    CommitsTo t d v := by
  intro u w hr
  obtain ⟨hx, hev⟩ := hr.commits
  have hcommit : w.x = writeReg u.x d v := by simp [hx, commitStage, hv, hw, hd, hval]
  refine ⟨?_, fun r hne => ?_, ?_⟩
  · by_cases h0 : d = 0#4
    · simp [h0]
    · rw [hcommit, readReg_writeReg_same _ _ h0, if_neg h0]
  · rw [hcommit, readReg_writeReg_other _ _ hne.symm]
  · by_cases h0 : d = 0#4 <;> simp [hev, stageWrites, hv, hw, hd, hval, h0]

/-! ### The value on its way (R20, R71) -/

theorem forwardedOnceLoaded_of_hit {o : Opc} {st : Stage} {d : RegIdx} (h : stageHit o d st = true) :
    ForwardedOnceLoaded o st d (stageValue o st) :=
  fun ex mem wb lcr hex => ⟨resolve_of_mem_hit hex h, fun hmem => by
    rw [resolve_of_wb_write hex hmem h, if_pos rfl]⟩

/-- What is no load forwards its `alu_result` from `EX` too. -/
theorem forwardedFromEveryStage_of_hit {o : Opc} {st : Stage} {d : RegIdx} (h : stageHit o d st = true)
    (hl : o.isLoad st.instr.opcode = false) : ForwardedFromEveryStage o st d st.aluResult := by
  have hval : stageValue o st = st.aluResult := by simp [stageValue, hl]
  rw [← hval]
  exact ⟨fun mem wb lcr => resolve_of_ex_hit h hl, forwardedOnceLoaded_of_hit h⟩

/-! ### The instructions -/

/-- An instruction without write intent that has its operands: it issues, fetch follows what it resolves to, and it
leaves no register changed. -/
theorem exec_without_write {s : State} {i : Instr} {va vb : Word} (hm : s.MemoryStageReady)
    (ha : s.operandNow i.portA = some va) (hb : s.operandNow i.portB = some vb) (hw : i.regWrite = false) :
    ∃ t, exec i s = .next t ∧ t.ex = issuedStage s i va ∧
      FetchSide s t (redirectOf s i va vb) (Instr.stops i) ∧
      (∀ r, stageHit s.params.opc r t.ex = false) ∧ CommitsNothing t :=
  ⟨_, exec_ready hm ha hb, rfl, fetchSide_issue _ _ _ _ _, stageHit_idle (st := issuedStage s i va) hw _,
    commitsNothing_of_no_write hw⟩

/-- Settles O32: the condition is equality of the operands. -/
theorem beqRedirectsWhenEqual : Obligations.BeqRedirectsWhenEqual := by
  intro s rd rs rt imm va vb hwf hm ha hb
  have hfr : redirectOf s (.beq rd rs rt imm) va vb =
      if va = vb then .redirected imm else .sequential (s.pc + 1#12) := by
    simp only [redirectOf_eq hwf, condEqual_iff]
  rw [← hfr]
  exact exec_without_write (i := .beq rd rs rt imm) hm ha hb rfl

/-- Settles O33: the condition is the signed comparison of the operands. -/
theorem bltRedirectsWhenSignedLess : Obligations.BltRedirectsWhenSignedLess := by
  intro s rd rs rt imm va vb hwf hm ha hb
  have hfr : redirectOf s (.blt rd rs rt imm) va vb =
      if va.toInt < vb.toInt then .redirected imm else .sequential (s.pc + 1#12) := by
    simp only [redirectOf_eq hwf, condLess_iff]
  rw [← hfr]
  exact exec_without_write (i := .blt rd rs rt imm) hm ha hb rfl

/-- The link value is an address, 12 bits wide, so the zero-extension keeps the sum modulo 4096 (R99). -/
theorem toNat_linkValue (p : Params) (a : Addr) :
    (linkValue p a).toNat = (a.toNat + p.linkOffset.value.toNat) % 4096 := by
  rw [linkValue, zext12, BitVec.zeroExtend, BitVec.toNat_setWidth_of_le (by decide), BitVec.toNat_add]

/-- A `JAL` in `EX` hits requests for register 15 and no others (R60, R98). -/
theorem stageHit_issuedStage_jal_iff {s : State} {rd rs rt r : RegIdx} {imm : Imm} {va : Word} :
    stageHit s.params.opc r (issuedStage s (.jal rd rs rt imm) va) = true ↔ r = 15#4 := by
  have hd : effectiveDestination s.params.opc (issuedStage s (.jal rd rs rt imm) va).instr = 15#4 :=
    effectiveDestination_jal _ rd rs rt imm
  rw [stageHit_iff, hd]
  constructor
  · rintro ⟨-, -, hr, -⟩
    exact hr.symm
  · rintro rfl
    exact ⟨rfl, rfl, rfl, by decide⟩

/-- Settles O34: a `JAL` has its operands, there being none, and its stage register writes register 15. -/
theorem jalLinksAndRedirects : Obligations.JalLinksAndRedirects := by
  intro s rd rs rt imm hwf hm
  have hfr : redirectOf s (.jal rd rs rt imm) 0#32 0#32 = .redirected imm := redirectOf_eq hwf _ _ _
  have hload : s.params.opc.isLoad ((Instr.jal rd rs rt imm).fields s.params.opc).opcode = false :=
    Instr.isLoad_fields hwf _
  have hexec := exec_ready (i := .jal rd rs rt imm) hm (operandNow_zero s) (operandNow_zero s)
  refine ⟨_, hexec, rfl, rfl, rfl, rfl, ?_, hfr ▸ fetchSide_issue _ _ _ _ _,
    fun r => stageHit_issuedStage_jal_iff, ?_, ?_⟩
  · refine (toNat_linkValue _ _).trans ?_
    cases s.params.linkOffset <;> rfl
  · exact forwardedFromEveryStage_of_hit (stageHit_issuedStage_jal_iff.2 rfl) hload
  · refine commitsTo_of_write rfl rfl (effectiveDestination_jal _ rd rs rt imm) ?_
    simp [stageValue, issuedStage, hload]

end Sys2Proof.Machine
end

section
/-! The data instructions and `HALT` (R102 to R106): the arithmetic in integers, what a one-operand instruction that
writes `rd` does, the load on its way to its word or its failure, and how a `HALT` empties the core. -/

namespace Sys2Proof.Machine

open Sys2Proof.Machine.State

/-! ### Arithmetic (R106) -/

theorem toInt_sext12 (v : BitVec 12) : (sext12 v).toInt = v.toInt :=
  BitVec.toInt_signExtend_of_le (by decide)

/-- A redirect goes to the instruction's own `imm` field (R87): the other outcomes of the resolver are no redirect. -/
theorem imm_of_resolveBranch_redirected {o : Opc} {f : Fields} {va vb : Word} {pc t : Addr}
    (h : resolveBranch o f va vb pc = .ok (.redirected t)) : f.imm = t := by
  cases hk : o.known f.opcode
  · rw [resolveBranch_unknown va vb pc hk] at h
    cases h
  · rw [resolveBranch_known va vb pc hk] at h
    split at h <;> cases h
    rfl

/-- Settles O18: the sum and the difference of bit vectors are those of the integers modulo 2^32. -/
theorem arithmeticIsModulo32 : Obligations.ArithmeticIsModulo32 := by
  have hsum (v : Word) (imm : Imm) : (v + sext12 imm).toInt = (v.toInt + imm.toInt).bmod (2 ^ 32) := by
    rw [BitVec.toInt_add, toInt_sext12]
  have hdiff (v : Word) (imm : Imm) : (v - sext12 imm).toInt = (v.toInt - imm.toInt).bmod (2 ^ 32) := by
    rw [BitVec.toInt_sub, toInt_sext12]
  refine ⟨hsum, hdiff, hsum, fun va vb => ?_, condLess_iff, fun o f va vb pc t h => ?_⟩
  · rw [condEqual_iff, BitVec.toNat_inj]
  · rw [imm_of_resolveBranch_redirected h]

theorem alu_of_reference {p : Params} (h : p.alu = .reference) (op : AluOp) (v : Word) (imm : Imm) :
    alu p op v imm = aluReference op v imm := by
  simp [alu, h]

/-! ### What writes `rd` (R102 to R104) -/

theorem exec_memory_params {s t : State} {i : Instr} (h : exec i s = .next t) :
    t.memory = s.memory ∧ t.params = s.params := by
  rw [exec_eq] at h
  cases h
  exact ⟨finishCycle_memory _ s, finishCycle_params _ s⟩

/-- What `ADDI`, `SUBI` and `LW` have in common: one operand, write intent for `d`, and no say in what is fetched
(R55, R89). -/
structure DataWrite (s : State) (i : Instr) (d : RegIdx) : Prop where
  portB : i.portB = 0#4
  regWrite : i.regWrite = true
  stops : Instr.stops i = false
  dest : effectiveDestination s.params.opc (i.fields s.params.opc) = d
  fetch : ∀ va vb, redirectOf s i va vb = .sequential (s.pc + 1#12)

section
variable {s : State} {i : Instr} {d : RegIdx} {va : Word}

theorem DataWrite.hits (h : DataWrite s i d) (va : Word) (h0 : d ≠ 0#4) :
    stageHit s.params.opc d (issuedStage s i va) = true :=
  stageHit_iff.2 ⟨rfl, h.regWrite, h.dest, h0⟩

/-- With its operand it issues, and fetch goes on. -/
theorem DataWrite.issues (h : DataWrite s i d) (hm : s.MemoryStageReady) (ha : s.operandNow i.portA = some va) :
    ∃ t, exec i s = .next t ∧ t.ex = issuedStage s i va ∧ FetchSide s t (.sequential (s.pc + 1#12)) false := by
  have hb : s.operandNow i.portB = some 0#32 := by rw [h.portB, operandNow_zero]
  have hexec := exec_ready hm ha hb
  rw [h.fetch, h.stops] at hexec
  exact ⟨_, hexec, rfl, fetchSide_issue _ _ _ _ _⟩

/-- What is no load also forwards from every stage, and commits, the `alu_result` it issued with (R20). -/
theorem DataWrite.issues_result (h : DataWrite s i d)
    (hload : s.params.opc.isLoad (i.fields s.params.opc).opcode = false) (hm : s.MemoryStageReady)
    (ha : s.operandNow i.portA = some va) :
    ∃ t, exec i s = .next t ∧ t.ex = issuedStage s i va ∧
      FetchSide s t (.sequential (s.pc + 1#12)) false ∧
      (d ≠ 0#4 → ForwardedFromEveryStage s.params.opc t.ex d t.ex.aluResult) ∧ CommitsTo t d t.ex.aluResult := by
  obtain ⟨t, hexec, hex, hfetch⟩ := h.issues hm ha
  obtain ⟨-, hp⟩ := exec_memory_params hexec
  refine ⟨t, hexec, hex, hfetch, fun h0 => ?_, ?_⟩
  · rw [hex]
    exact forwardedFromEveryStage_of_hit (h.hits va h0) hload
  · refine commitsTo_of_write (by rw [hex]; rfl) (by rw [hex]; exact h.regWrite) (by rw [hp, hex]; exact h.dest) ?_
    simp [stageValue, hp, hex, issuedStage, hload]

end

/-- Settles O29: the `alu_result` of the issued stage register is the sum. -/
theorem addiAddsAndCommits : Obligations.AddiAddsAndCommits := by
  intro s rd rs rt imm va hwf hm ha
  have h : DataWrite s (.addi rd rs rt imm) rd :=
    ⟨rfl, rfl, rfl, effectiveDestination_fields hwf _, redirectOf_eq hwf _⟩
  obtain ⟨t, hexec, hex, hrest⟩ := h.issues_result (Instr.isLoad_fields hwf _) hm ha
  refine ⟨t, hexec, hex, fun href => ?_, hrest⟩
  rw [hex]
  exact alu_of_reference href .addi va imm

/-- Settles O30: the `alu_result` of the issued stage register is the difference. -/
theorem subiSubtractsAndCommits : Obligations.SubiSubtractsAndCommits := by
  intro s rd rs rt imm va hwf hm ha
  have h : DataWrite s (.subi rd rs rt imm) rd :=
    ⟨rfl, rfl, rfl, effectiveDestination_fields hwf _, redirectOf_eq hwf _⟩
  obtain ⟨t, hexec, hex, hrest⟩ := h.issues_result (Instr.isLoad_fields hwf _) hm ha
  refine ⟨t, hexec, hex, fun href => ?_, hrest⟩
  rw [hex]
  exact alu_of_reference href .subi va imm

/-! ### The load (R104, R135) -/

/-- The failure of the load in `EX` comes before whatever stands in decode (R115, R123). -/
theorem step_of_load_outside {s : State} (hl : s.Live) (hload : s.LoadInEx)
    (hout : s.memory.dlen ≤ s.ex.aluResult.toNat) :
    step s = .next (raise (.dataAddressOutOfImage s.ex.aluResult) s) := by
  obtain ⟨d, hd⟩ := step_live hl
  rw [hd]
  rcases finishCycle_cases d s with ⟨-, -, h⟩ | ⟨hr, -⟩ | ⟨hr, -⟩ | ⟨hr, -⟩
  · rw [h]
  all_goals exact absurd (hr hload) (Nat.not_lt.2 hout)

/-- The value of a load in `MEM` is the word it reads (R20, R115). -/
theorem stageValue_memNext_of_load {s : State} {w : Word} (hload : s.LoadInEx)
    (hword : s.memory.dmem[s.ex.aluResult.toNat]? = some w) : stageValue s.params.opc (memNext s) = w := by
  simp [stageValue, memNext, hload.1, hload.2, List.getD, hword]

/-- Settles O31: the `alu_result` of the issued stage register is the address, its value the word read there. -/
theorem lwLoadsAndCommits : Obligations.LwLoadsAndCommits := by
  intro s rd rs rt imm va hwf hm ha
  have h : DataWrite s (.lw rd rs rt imm) rd :=
    ⟨rfl, rfl, rfl, effectiveDestination_fields hwf _, redirectOf_eq hwf _⟩
  obtain ⟨t, hexec, hex, hfetch⟩ := h.issues hm ha
  obtain ⟨hmem, hp⟩ := exec_memory_params hexec
  have hhit (h0 : rd ≠ 0#4) : stageHit s.params.opc rd t.ex = true := hex ▸ h.hits va h0
  have hopc : s.params.opc.isLoad t.ex.instr.opcode = true := by
    rw [hex]
    exact Instr.isLoad_fields hwf (.lw rd rs rt imm)
  have hload : t.LoadInEx := ⟨by rw [hex]; rfl, hp ▸ hopc⟩
  refine ⟨t, hexec, hex, fun href => ?_, hfetch, fun h0 mem wb lcr => ?_, fun h0 w => ?_, fun w hword => ?_,
    fun hl hout => ?_⟩
  · rw [hex]
    exact alu_of_reference href .lw va imm
  · exact resolve_eq_stall_iff.2 ⟨hhit h0, hopc⟩
  · have hval : stageValue s.params.opc { t.ex with memData := w } = w := if_pos hopc
    have hhit' : stageHit s.params.opc rd { t.ex with memData := w } = true := hhit h0
    simpa only [hval] using forwardedOnceLoaded_of_hit hhit'
  · rw [← hmem] at hword
    refine commitsTo_of_write hload.1 (by rw [hex]; rfl) ?_ (stageValue_memNext_of_load hload hword)
    rw [hp, hex]
    exact h.dest
  · exact step_of_load_outside hl hload (hmem ▸ hout)

/-! ### The halt (R105, R120) -/

theorem presented_of_invalid {s : State} (h : s.ifid.valid = false) : presented s = .nothing := by
  simp [presented, h]

/-- With nothing in decode a cycle that does not fail moves the stages on behind a bubble (R118). -/
theorem StepKind.of_decode_empty {s t : State} (h : StepKind s t) (hf : t.failed = none)
    (hp : presented s = .nothing) : t.ex = .bubble ∧ t.mem = memNext s ∧ t.wb = s.mem := by
  obtain ⟨-, -, -, hwb, -, hmem, -⟩ := h.older hf
  refine ⟨?_, hmem, hwb⟩
  rcases h.ex_cases hf with hex | ⟨i, va, hi, -⟩
  · exact hex
  · cases hp.symm.trans hi

/-- Once fetch has stopped, a decode stage that is empty stays empty (R120). -/
theorem step_keeps_decode_empty {s t : State} (h : step s = .next t) (hs : s.fetchStop = true)
    (hp : presented s = .nothing) : presented t = .nothing := by
  rcases step_next h with ⟨-, -, rfl⟩ | ⟨-, hk⟩
  · exact hp
  · cases hk with
    | fails f _ => exact hp
    | waits _ _ => exact hp
    | empty _ _ => simp [presented, hs, IfId.bubble]
    | issues i va vb _ hi _ _ => cases hp.symm.trans hi

theorem run_keeps_decode_empty {n : Nat} {s t : State} (h : run n s = .next t) (hs : s.fetchStop = true)
    (hp : presented s = .nothing) : presented t = .nothing := by
  refine And.right (run_keeps (P := fun u => u.fetchStop = true ∧ presented u = .nothing) ?_ h ⟨hs, hp⟩)
  rintro u v huv ⟨hstop, hnothing⟩
  exact ⟨(step_keeps_fetch_stopped huv hstop).1, step_keeps_decode_empty huv hstop hnothing⟩

/-- The three cycles from `EX` to the end of write-back are cycles of a live core (R111). -/
theorem State.RetiresInto.cycles {t u w : State} (h : RetiresInto t u w) :
    ∃ v, step t = .next v ∧ v.Live ∧ step v = .next u ∧ u.Live ∧ step u = .next w ∧ w.failed = none := by
  obtain ⟨-, -, hul, -⟩ := h.inWb
  obtain ⟨hrun, -, huw, hf⟩ := h
  obtain ⟨v, htv, hrun⟩ := run_succ_next.1 hrun
  obtain ⟨u', hvu, hrun⟩ := run_succ_next.1 hrun
  cases hrun
  rcases step_next hvu with ⟨-, hh, rfl⟩ | ⟨hvl, -⟩
  · exact absurd (hul.2.symm.trans hh) Bool.false_ne_true
  · exact ⟨v, htv, hvl, hvu, hul, huw, hf⟩

theorem run_of_halted {s : State} (hf : s.failed = none) (hh : s.halted = true) (n : Nat) : run n s = .next s := by
  induction n with
  | zero => rfl
  | succ n ih => exact run_succ_next.2 ⟨s, by simp [step, hf, hh], ih⟩

/-- With fetch stopped and nothing in decode, no instruction follows the one in `EX` (R120). -/
theorem State.RetiresInto.drains {t u w : State} (h : RetiresInto t u w) (hs : t.fetchStop = true)
    (hp : presented t = .nothing) :
    u.ex = .bubble ∧ u.mem = .bubble ∧ w.ex = .bubble ∧ w.mem = .bubble ∧ w.wb = .bubble := by
  obtain ⟨htl, -⟩ := h.inWb
  obtain ⟨v, htv, hvl, hvu, hul, huw, hf⟩ := h.cycles
  have hvs := (step_keeps_fetch_stopped htv hs).1
  have hvp := step_keeps_decode_empty htv hs hp
  have hup := step_keeps_decode_empty hvu hvs hvp
  obtain ⟨hvex, -⟩ := (step_kind htl htv).of_decode_empty hvl.1 hp
  obtain ⟨huex, humem, -⟩ := (step_kind hvl hvu).of_decode_empty hul.1 hvp
  obtain ⟨hwex, hwmem, hwwb⟩ := (step_kind hul huw).of_decode_empty hf hup
  rw [memNext_bubble hvex] at humem
  rw [memNext_bubble huex] at hwmem
  exact ⟨huex, humem, hwex, hwmem, hwwb.trans humem⟩

/-- A `HALT` in `EX` ends the run in the cycle in which it is in `WB` (R112). -/
theorem State.RetiresInto.halted {t u w : State} (h : RetiresInto t u w) (hh : t.HoldsHalt t.ex) :
    w.halted = true := by
  obtain ⟨-, -, hul, hwb, hp⟩ := h.inWb
  obtain ⟨-, -, huw, hf⟩ := h
  obtain ⟨-, -, hend⟩ := (step_kind hul huw).holdsHalt_iff hf
  rw [hend]
  simpa [HoldsHalt, hwb, hp] using hh

/-- Settles O35: a `HALT` issues with fetch stopped and decode empty, which stay so and leave nothing behind it. -/
theorem haltStopsTheCore : Obligations.HaltStopsTheCore := by
  intro s rd rs rt imm hwf hm
  have hfr : redirectOf s (.halt rd rs rt imm) 0#32 0#32 = .sequential (s.pc + 1#12) := redirectOf_halt hwf ..
  obtain ⟨t, hexec, hex, hfetch, hhit, hcommit⟩ := exec_without_write (i := .halt rd rs rt imm) hm
    (operandNow_zero s) (operandNow_zero s) rfl
  rw [hfr] at hfetch
  obtain ⟨hstop, hifid, hpc, hfs⟩ : t.fetchStop = true ∧ t.ifid = .bubble ∧ t.pc = s.pc ∧ t.fs = s.fs :=
    (if_pos (.inr rfl)).mp hfetch
  have hnothing : presented t = .nothing := presented_of_invalid (hifid ▸ rfl)
  refine ⟨t, hexec, hex, hfetch, hhit, fun n v hrun => ?_, hcommit, fun u w hr => ?_⟩
  · obtain ⟨hvs, hvpc, hvfs⟩ := run_keeps_fetch_stopped hrun hstop
    exact ⟨run_keeps_decode_empty hrun hstop hnothing, hvs, hvpc.trans hpc, hvfs.trans hfs⟩
  · obtain ⟨-, hp⟩ := exec_memory_params hexec
    have hholds : t.HoldsHalt t.ex := by
      have h := (holdsHalt_issuedStage hwf (.halt rd rs rt imm) 0#32).2 rfl
      rwa [← hex, HoldsHalt, ← hp] at h
    obtain ⟨huex, humem, hwex, hwmem, hwwb⟩ := hr.drains hstop hnothing
    have hend := hr.halted hholds
    obtain ⟨-, -, -, hf⟩ := hr
    refine ⟨by rw [huex]; rfl, by rw [humem]; rfl, hend, ?_, run_of_halted hf hend⟩
    simp [hwex, hwmem, hwwb, Stage.bubble]

end Sys2Proof.Machine
end

section
/-! The instruction-level view against whole runs (R126, R127): the step-by-step relation `Sim` carried along a run of
the core, which the view follows, and along a run of the view, which the core catches up with. -/

namespace Sys2Proof.Machine

open Sys2Proof.Machine.State

/-! ### Where the two runs stand -/

/-- The core's state and the view's outcome tell of the same point of the program: both go on, both have ended at a
`HALT` with the same registers and writes, or both have failed alike (R127). -/
inductive Agree (l : Launch) : State → ViewOutcome → Prop where
  | running {t : State} {v : View} : Sim l t v → Agree l t (.next v)
  | halted {t : State} {v : View} : t.NormalEnd → t.x = v.x → commitsOf t.events = v.writes → Agree l t (.stopped v)
  | failed {t : State} {f : Fault} (v : View) : t.failed = some f → Agree l t (.raised f v)

section
variable {l : Launch} {s t : State} {v : View} {o : ViewOutcome}

theorem Agree.of_live (h : Agree l t o) (ht : t.Live) : ∃ v, o = .next v := by
  cases h with
  | running _ => exact ⟨_, rfl⟩
  | halted hn _ _ => exact nomatch hn.1.symm.trans ht.2
  | failed v hf => exact nomatch hf.symm.trans ht.1

theorem Agree.of_normalEnd (h : Agree l t o) (ht : t.NormalEnd) :
    ∃ v, o = .stopped v ∧ t.x = v.x ∧ commitsOf t.events = v.writes := by
  cases h with
  | running hs => exact nomatch ht.1.symm.trans hs.live.2
  | halted _ hx hw => exact ⟨_, rfl, hx, hw⟩
  | failed v hf => exact nomatch hf.symm.trans ht.2

theorem Agree.of_failed {f : Fault} (h : Agree l t o) (ht : t.failed = some f) : ∃ v, o = .raised f v := by
  cases h with
  | running hs => exact nomatch ht.symm.trans hs.live.1
  | halted hn _ _ => exact nomatch ht.symm.trans hn.2
  | failed v hf => cases ht.symm.trans hf; exact ⟨v, rfl⟩

/-- A step of a running core leaves the view where it is, which it can do only so often in a row, or goes where the
view's next step goes. -/
theorem Sim.step (h : Sim l s v) (hs : step s = .next t) :
    (Sim l t v ∧ t.lag < s.lag) ∨ Agree l t (viewStep l v) := by
  cases sim_step h hs (stepKeepsInv s t h.inv hs) with
  | fails f hf hv => exact .inr (hv ▸ .failed v hf)
  | halts hn hv hx hw => exact .inr (hv ▸ .halted hn hx hw)
  | alone ht hlag => exact .inl ⟨ht, hlag⟩
  | both v' hv ht => exact .inr (hv ▸ .running ht)

/-! ### Runs from a point on -/

/-- `n` more steps of the view: none once its run is over. -/
def ViewOutcome.goOn (l : Launch) (n : Nat) : ViewOutcome → ViewOutcome
  | .next v => viewRun l n v
  | .stopped v => .stopped v
  | .raised f v => .raised f v

@[simp] theorem ViewOutcome.goOn_zero (l : Launch) (o : ViewOutcome) : o.goOn l 0 = o := by
  cases o <;> rfl

theorem viewRun_succ (l : Launch) (n : Nat) (v : View) : viewRun l (n + 1) v = (viewStep l v).goOn l n := by
  rw [viewRun]
  cases viewStep l v <;> rfl

/-- The run of a core that has failed has no later state (R138). -/
theorem eq_of_run_of_failed {n : Nat} {f : Fault} (hf : s.failed = some f) (h : run n s = .next t) : t = s := by
  cases n with
  | zero => cases h; rfl
  | succ n =>
    obtain ⟨u, hu, -⟩ := run_succ_next.1 h
    cases (step_fault_iff.2 hf).symm.trans hu

/-- The view follows the core: whatever state a run reaches, some number of its own steps agrees with it. -/
theorem Agree.run {n : Nat} (h : Agree l s o) (hrun : run n s = .next t) : ∃ m, Agree l t (o.goOn l m) := by
  induction n generalizing s o with
  | zero =>
    cases hrun
    exact ⟨0, by simpa using h⟩
  | succ n ih =>
    cases h with
    | running hsim =>
      obtain ⟨u, hu, ht⟩ := run_succ_next.1 hrun
      rcases hsim.step hu with ⟨hsim', -⟩ | hagree
      · exact ih (.running hsim') ht
      · obtain ⟨m, hm⟩ := ih hagree ht
        exact ⟨m + 1, (viewRun_succ l m _).symm ▸ hm⟩
    | halted hn hx hw =>
      cases (run_of_halted hn.2 hn.1 _).symm.trans hrun
      exact ⟨0, .halted hn hx hw⟩
    | failed v hf =>
      cases eq_of_run_of_failed hf hrun
      exact ⟨0, .failed v hf⟩

/-- The core makes the view's next step after finitely many of its own, by induction on how long it can lag. -/
theorem Sim.catches_up {s : State} (h : Sim l s v) : ∃ n t, Machine.run n s = .next t ∧ Agree l t (viewStep l v) := by
  obtain ⟨u, hu, -⟩ := step_live_next h.live
  rcases h.step hu with ⟨hsim, hlag⟩ | hagree
  · obtain ⟨n, t, hrun, ht⟩ := hsim.catches_up
    exact ⟨n + 1, t, run_succ_next.2 ⟨u, hu, hrun⟩, ht⟩
  · exact ⟨1, u, run_succ_next.2 ⟨u, hu, rfl⟩, hagree⟩
termination_by s.lag

/-- The core follows the view. -/
theorem Agree.goOn (h : Agree l s o) (m : Nat) : ∃ n t, Machine.run n s = .next t ∧ Agree l t (o.goOn l m) := by
  induction m generalizing s o with
  | zero => exact ⟨0, s, rfl, by simpa using h⟩
  | succ m ih =>
    cases h with
    | running hsim =>
      obtain ⟨n, u, hu, hagree⟩ := hsim.catches_up
      obtain ⟨k, t, ht, hm⟩ := ih hagree
      exact ⟨n + k, t, (run_add hu).trans ht, (viewRun_succ l m _).symm ▸ hm⟩
    | halted hn hx hw => exact ⟨0, s, rfl, .halted hn hx hw⟩
    | failed v hf => exact ⟨0, s, rfl, .failed v hf⟩

end

/-! ### From a launch (R127) -/

theorem agree_launch {l : Launch} (h : l.wf = true) : Agree l (State.launch l) (.next View.start) :=
  .running (sim_launch (inv_launch h))

section
variable {l : Launch}

theorem haltedRuns_iff (hwf : l.wf = true) (x : Vector Word 16) (writes : List (RegIdx × Word)) :
    (∃ n s, run n (State.launch l) = .next s ∧ s.NormalEnd ∧ s.x = x ∧ commitsOf s.events = writes) ↔
    (∃ m v, viewRun l m View.start = .stopped v ∧ v.x = x ∧ v.writes = writes) := by
  constructor
  · rintro ⟨n, s, hrun, hn, rfl, rfl⟩
    obtain ⟨m, hagree⟩ := (agree_launch hwf).run hrun
    obtain ⟨v, hv, hx, hw⟩ := hagree.of_normalEnd hn
    exact ⟨m, v, hv, hx.symm, hw.symm⟩
  · rintro ⟨m, v, hv, rfl, rfl⟩
    obtain ⟨n, s, hrun, hagree⟩ := (agree_launch hwf).goOn m
    rw [ViewOutcome.goOn, hv] at hagree
    cases hagree with
    | halted hn hx hw => exact ⟨n, s, hrun, hn, hx, hw⟩

theorem failedRuns_iff (hwf : l.wf = true) (f : Fault) :
    (∃ n, run n (State.launch l) = .fault f) ↔ (∃ m v, viewRun l m View.start = .raised f v) := by
  constructor
  · rintro ⟨n, hfault⟩
    obtain ⟨k, s, hrun, hf⟩ := exists_failed_of_run_fault hfault
    obtain ⟨m, hagree⟩ := (agree_launch hwf).run hrun
    exact ⟨m, hagree.of_failed hf⟩
  · rintro ⟨m, v, hv⟩
    obtain ⟨n, s, hrun, hagree⟩ := (agree_launch hwf).goOn m
    rw [ViewOutcome.goOn, hv] at hagree
    cases hagree with
    | failed _ hf => exact ⟨n + 1, by rw [run_add hrun, run, step_fault_iff.2 hf]⟩

/-- A run never ends in a refusal. -/
theorem run_not_refused (n : Nat) (s : State) (r : Refusal) : run n s ≠ .refused r := by
  induction n generalizing s with
  | zero => exact fun h => nomatch h
  | succ n ih =>
    rw [run]
    split
    · exact ih _
    · exact fun h => nomatch h
    · exact absurd ‹_› (step_not_refused s _)

/-- Neither run can go on for ever when the other ends. -/
theorem runsForEver_iff (hwf : l.wf = true) :
    (∀ n, ∃ s, run n (State.launch l) = .next s ∧ s.Live) ↔ (∀ m, ∃ v, viewRun l m View.start = .next v) := by
  constructor
  · intro hall m
    obtain ⟨n, s, hrun, hagree⟩ := (agree_launch hwf).goOn m
    obtain ⟨s', hrun', hl⟩ := hall n
    cases hrun.symm.trans hrun'
    exact hagree.of_live hl
  · intro hall n
    cases hrun : run n (State.launch l) with
    | next s =>
      obtain ⟨m, hagree⟩ := (agree_launch hwf).run hrun
      obtain ⟨v, hv⟩ := hall m
      rw [ViewOutcome.goOn, hv] at hagree
      cases hagree with
      | running hsim => exact ⟨s, rfl, hsim.live⟩
    | fault f =>
      obtain ⟨m, v, hv⟩ := (failedRuns_iff hwf f).1 ⟨n, hrun⟩
      obtain ⟨v', hv'⟩ := hall m
      cases hv.symm.trans hv'
    | refused r => exact absurd hrun (run_not_refused n _ r)

end

/-- Settles O47: each end of one run is met by the other, which catches up with it. -/
theorem theTwoViewsAgree : Obligations.TheTwoViewsAgree :=
  fun _ hwf => ⟨haltedRuns_iff hwf, failedRuns_iff hwf, runsForEver_iff hwf⟩

/-- Settles O43: the first part of O47. -/
theorem haltedRunsAgreeWithTheView : Obligations.HaltedRunsAgreeWithTheView :=
  fun l hwf => (theTwoViewsAgree l hwf).halts

/-- Settles O44: the second part of O47. -/
theorem failedRunsAgreeWithTheView : Obligations.FailedRunsAgreeWithTheView :=
  fun l hwf => (theTwoViewsAgree l hwf).fails

end Sys2Proof.Machine
end

section
/-! The cycle as the spec writes it (R109, R119, R123, R124): the step is one cycle around what stands in decode, which
is what the ID section of `advance` makes of the raw fields. -/

namespace Sys2Proof.Machine

open Sys2Proof.Machine.State

/-! ### What stands in decode, as one `Decoded` (R117 to R119) -/

/-- What decode does in the cycle of a live core. -/
def decodedNow (s : State) : Decoded :=
  match presented s with
  | .nothing => .issues .bubble (sequentialNext s) false
  | .outOfImage a => .fails (.fetchOutOfImage a)
  | .unknown op => .fails (.encodingError op)
  | .instruction i => decodeOf i s

theorem step_eq_finishCycle {s : State} (h : s.Live) : step s = .next (finishCycle (decodedNow s) s) := by
  obtain ⟨hf, hh⟩ := h
  cases hp : presented s with
  | nothing => simp [step, hf, hh, hp, decodedNow, emptyCycle]
  | outOfImage a => simp [step, hf, hh, hp, decodedNow, failingDecode]
  | unknown op => simp [step, hf, hh, hp, decodedNow, failingDecode]
  | instruction i => simp [step, hf, hh, hp, decodedNow, exec_eq]

/-! ### Operands by the raw fields (R55, R124) -/

/-- The decoder's columns, instruction by instruction (R55). -/
theorem decoderColumns (i : Instr) : Laws.DecoderColumns.Statement i := by
  cases i with
  | addi rd rs rt imm => exact Laws.DecoderColumns.addi rd rs rt imm
  | subi rd rs rt imm => exact Laws.DecoderColumns.subi rd rs rt imm
  | lw rd rs rt imm => exact Laws.DecoderColumns.lw rd rs rt imm
  | beq rd rs rt imm => exact Laws.DecoderColumns.beq rd rs rt imm
  | blt rd rs rt imm => exact Laws.DecoderColumns.blt rd rs rt imm
  | jal rd rs rt imm => exact Laws.DecoderColumns.jal rd rs rt imm
  | halt rd rs rt imm => exact Laws.DecoderColumns.halt rd rs rt imm

@[simp] theorem query_zero (s : State) : query s 0#4 = .ok (.value 0#32) :=
  registerZeroResolvesToZero _ _ _ _ _

/-- A query that is made only when the instruction reads the register, as R124 writes it, is the query of the port,
which is given index 0 otherwise (R77). -/
theorem query_ite (s : State) (reads : Bool) (r : RegIdx) :
    (if reads then resolve s.params.opc r s.ex s.mem s.wb s.lcr else .ok (.value 0#32)) =
      query s (if reads then r else 0#4) := by
  cases reads
  · simp
  · rfl

/-- So is the operand. -/
theorem forwardedOr_ite {s : State} {reads : Bool} {r : RegIdx} {q : ForwardResult}
    (h : query s (if reads then r else 0#4) = .ok q) :
    forwardedOr s r q = forwardedOr s (if reads then r else 0#4) q := by
  cases reads
  · cases (query_zero s).symm.trans h
    rfl
  · rfl

theorem operandValue_eq {s : State} {r : RegIdx} {q : ForwardResult} (h : q ≠ .stallRequired) :
    operandValue s r q = some (forwardedOr s r q) := by
  cases q with
  | value v => rfl
  | notFound => rfl
  | stallRequired => exact absurd rfl h

/-- `alu_result` by opcode is that of the instruction, whose number no earlier test takes (R118). -/
theorem issueResult_fields {s : State} (h : s.params.opc.wf = true) (i : Instr) (va : Word) :
    issueResult s (i.fields s.params.opc) va = Instr.issueValue s i va := by
  obtain ⟨⟨addi_subi, addi_lw, addi_beq, addi_blt, addi_jal, addi_halt⟩,
    ⟨subi_lw, subi_beq, subi_blt, subi_jal, subi_halt⟩, ⟨lw_beq, lw_blt, lw_jal, lw_halt⟩,
    ⟨-, beq_jal, -⟩, ⟨blt_jal, -⟩, jal_halt⟩ := Opc.distinct h
  cases i with
  | addi rd rs rt imm => simp [issueResult, Instr.fields, Instr.issueValue]
  | subi rd rs rt imm => simp [issueResult, Instr.fields, Instr.issueValue, addi_subi.symm]
  | lw rd rs rt imm => simp [issueResult, Instr.fields, Instr.issueValue, addi_lw.symm, subi_lw.symm]
  | beq rd rs rt imm =>
    simp [issueResult, Instr.fields, Instr.issueValue, addi_beq.symm, subi_beq.symm, lw_beq.symm, beq_jal]
  | blt rd rs rt imm =>
    simp [issueResult, Instr.fields, Instr.issueValue, addi_blt.symm, subi_blt.symm, lw_blt.symm, blt_jal]
  | jal rd rs rt imm =>
    simp [issueResult, Instr.fields, Instr.issueValue, addi_jal.symm, subi_jal.symm, lw_jal.symm]
  | halt rd rs rt imm =>
    simp [issueResult, Instr.fields, Instr.issueValue, addi_halt.symm, subi_halt.symm, lw_halt.symm, jal_halt.symm]

/-! ### The ID section (R124) -/

/-- What the ID section answers in a cycle in which decode does `d`. -/
def Decoded.idSection (s : State) : Decoded → Except Fault IdSection
  | .fails f => .error f
  | .stalls => .ok { stall := true, fr := sequentialNext s, ex' := .bubble, fetchStop' := s.fetchStop }
  | .issues ex' fr stop => .ok { stall := false, fr := fr, ex' := ex', fetchStop' := s.fetchStop || stop }

/-- With an instruction of the map the ID section asks for the operands on the ports and issues what the instruction
issues. -/
theorem idIssue_fields {s : State} (h : s.params.opc.wf = true) (i : Instr) :
    idIssue s (i.fields s.params.opc) = (decodeOf i s).idSection s := by
  obtain ⟨-, hwrites, hA, hB, hstops⟩ := decoderColumns i s.params.opc h
  simp only [idIssue, query_ite, decodeOf, decodeStage, readOperands, hwrites, hstops, issueResult_fields h]
  cases ha : query s i.portA with
  | error f => simp [hA, ha, Decoded.idSection]
  | ok a =>
    cases hb : query s i.portB with
    | error f => simp [hA, hB, ha, hb, Decoded.idSection]
    | ok b =>
      rw [← hA] at ha
      rw [← hB] at hb
      rw [ha, hb]
      simp only
      rw [forwardedOr_ite ha, forwardedOr_ite hb, hA, hB]
      by_cases hstall : a = .stallRequired ∨ b = .stallRequired
      · rw [if_pos hstall]
        rcases hstall with rfl | rfl
        · rfl
        · cases a <;> rfl
      · rw [if_neg hstall]
        rw [not_or] at hstall
        simp only [operandValue_eq hstall.1, operandValue_eq hstall.2]
        simp [resolveBranch_known _ _ _ (Instr.known_fields _ _), Decoded.idSection]

theorem idSection_eq {s : State} (h : s.params.wf = true) : idSection s = (decodedNow s).idSection s := by
  unfold decodedNow
  cases hp : presented s with
  | nothing => simp [idSection, presented_nothing hp, Decoded.idSection, sequentialNext]
  | outOfImage a =>
    obtain ⟨hv, ho, rfl⟩ := presented_outOfImage hp
    simp [idSection, hv, ho, Decoded.idSection]
  | unknown op =>
    obtain ⟨hv, ho, hd⟩ := presented_unknown hp
    have hk : s.params.opc.known (decodeFields s.ifid.word).opcode = false := by
      rw [← Bool.not_eq_true, ← exists_decode_iff_known]
      simp [hd]
    cases (decode_of_unknown hk).symm.trans hd
    simp [idSection, hv, ho, hk, Decoded.idSection]
  | instruction i =>
    obtain ⟨hv, ho, hd⟩ := presented_instruction hp
    have hk := exists_decode_iff_known.1 ⟨i, hd⟩
    have hfields : i.fields s.params.opc = decodeFields s.ifid.word :=
      Fields.fields_of_instr? (decode_eq_ok_iff.1 hd)
    simp only [idSection, hv, ho, hk, if_true, Bool.false_eq_true, if_false]
    rw [← hfields, idIssue_fields h]

/-! ### The WB and IF sections (R124) -/

/-- Write-back in R124's words: what is committed, and its event. -/
theorem commit_eq_ite (s : State) :
    let w := effectiveDestination s.params.opc s.wb.instr
    let v := stageValue s.params.opc s.wb
    let commits := s.wb.valid && s.wb.regWrite && w != 0#4
    committedRegs s = (if commits then writeReg s.x w v else s.x) ∧
      commitEvents s = (if commits then [.commit s.cycle w v] else []) := by
  intro w v commits
  have hiff : commits = true ↔ s.wb.valid = true ∧ s.wb.regWrite = true ∧ w ≠ 0#4 := by simp [commits, and_assoc]
  rcases commit_cases s with ⟨h, hx, he⟩ | ⟨h, hx, he⟩
  · rw [if_pos (hiff.2 h), if_pos (hiff.2 h)]
    exact ⟨hx, he⟩
  · rw [if_neg (mt hiff.1 h), if_neg (mt hiff.1 h)]
    exact ⟨hx, he⟩

theorem advanceLive_stall (s : State) (mem' : Stage) (fr : FetchRedirect) :
    advanceLive s mem' { stall := true, fr := fr, ex' := .bubble, fetchStop' := s.fetchStop } =
      shiftStages mem' .bubble s := by
  obtain ⟨hx, he⟩ := commit_eq_ite s
  simp [advanceLive, shiftStages, hx, he, stageValue, haltCommits, nextLcr]

theorem advanceLive_issue (s : State) (mem' ex' : Stage) (fr : FetchRedirect) (stop : Bool) :
    advanceLive s mem' { stall := false, fr := fr, ex' := ex', fetchStop' := s.fetchStop || stop } =
      fetchStage s fr stop (shiftStages mem' ex' s) := by
  obtain ⟨hx, he⟩ := commit_eq_ite s
  cases hstop : s.fetchStop || stop <;> cases fr <;>
    simp [advanceLive, fetchStage, shiftStages, hstop, hx, he, stageValue, haltCommits, nextLcr, fetchTransition,
      fetchedWord_eq, wordAtPc, FetchRedirect.addr, FetchRedirect.state, redirectEvents]

/-- `advance` is the cycle around what its ID section found. -/
theorem advance_eq_finishCycle {s : State} {d : Decoded} (hl : s.Live) (h : idSection s = d.idSection s) :
    advance s = finishCycle d s := by
  obtain ⟨hf, hh⟩ := hl
  have hrun : ¬ (s.halted = true ∨ s.failed ≠ none) := by simp [hf, hh]
  rcases memInput_cases s with ⟨⟨hv, hload⟩, hout, hmem⟩ | ⟨hready, hmem⟩
  · simp [advance, hrun, hv, hload, hout, finishCycle, hmem, raise]
  · have hin : ¬ ((s.ex.valid && s.params.opc.isLoad s.ex.instr.opcode) = true ∧
        s.memory.dlen ≤ s.ex.aluResult.toNat) := by
      rw [Bool.and_eq_true]
      exact fun hc => absurd (hready hc.1) (Nat.not_lt.2 hc.2)
    simp only [advance, if_neg hrun, if_neg hin, h, finishCycle, hmem]
    cases d with
    | fails f => rfl
    | stalls => exact advanceLive_stall s (memNext s) _
    | issues ex' fr stop => exact advanceLive_issue s (memNext s) ex' fr stop

/-- Settles O28: both are the cycle around what stands in decode. -/
theorem stepIsAdvance : Obligations.StepIsAdvance := by
  intro s hwf
  refine ⟨fun hf => ?_, fun f hf => ⟨step_fault_iff.2 hf, by simp [advance, hf]⟩, fun hh => by simp [advance, hh]⟩
  cases hh : s.halted with
  | true => simp [step, advance, hf, hh]
  | false => rw [step_eq_finishCycle ⟨hf, hh⟩, advance_eq_finishCycle ⟨hf, hh⟩ (idSection_eq hwf)]

/-! ### What the step runs (R117 to R119) -/

theorem presented_of_decode {s : State} {i : Instr} (hv : s.ifid.valid = true) (ho : s.ifid.oob = false)
    (hd : decode s.params.opc s.ifid.word = .ok i) : presented s = .instruction i := by
  simp [presented, hv, ho, hd]

/-- Settles O27: a word that decodes is what is presented, and an empty decode stage is a cycle around a bubble. -/
theorem stepRunsTheDecodedInstruction : Obligations.StepRunsTheDecodedInstruction := by
  refine ⟨fun s i hl hv ho hd => ?_, fun s hl hm hv => ?_⟩
  · rw [step_eq_finishCycle hl, decodedNow, presented_of_decode hv ho hd, exec_eq]
  · refine ⟨fetchStage s (sequentialNext s) false (shiftStages (memNext s) .bubble s), ?_, rfl, fetchSide_issue ..⟩
    simp [step_eq_finishCycle hl, decodedNow, presented_of_invalid hv, finishCycle, memInput_of_ready hm]

end Sys2Proof.Machine
end

section
/-! The older stages of a cycle (R111 to R115), the failure of a cycle (R123), and an instruction's way from decode to
its end. -/

namespace Sys2Proof.Machine

open Sys2Proof.Machine.State

/-! ### Write-back, `lcr` and the memory stage (R112 to R115) -/

theorem commit_mem_events {s t : State} (h : StepKind s t) (hf : t.failed = none) {e : Event}
    (he : e ∈ commitEvents s) : e ∈ t.events := by
  obtain ⟨-, -, -, -, -, -, -, -, -, rest, hev, -⟩ := h.older hf
  simp [hev, he]

/-- Settles O23, by whether the instruction in `WB` commits. -/
theorem writeBackCommits : Obligations.WriteBackCommits := by
  intro s t hl hstep hf d v writes
  have hk := step_kind hl hstep
  obtain ⟨-, hx, hhalt, -, -, -, -, -, -, rest, hev, hrest⟩ := hk.older hf
  refine ⟨fun hw => ?_, fun hw => ?_, fun r hr => ?_, ?_⟩
  · rcases commit_cases s with ⟨-, hregs, hce⟩ | ⟨hn, -⟩
    · refine ⟨?_, commit_mem_events hk hf (hce ▸ List.mem_singleton_self _), ?_⟩
      · rw [hx, hregs, readReg_writeReg_same _ _ hw.2.2]
        rfl
      · rw [hev, hce]
        simp [hrest, commitsOf, d, v, stageValue]
    · exact absurd hw hn
  · rcases commit_cases s with ⟨hy, -⟩ | ⟨-, hregs, hce⟩
    · exact absurd hy hw
    · rw [hx, hev, hregs, hce]
      simp [hrest]
  · rw [hx]
    exact readReg_committedRegs_of_not_dest fun h => hr h.2.2.symm
  · rw [hhalt, haltCommits_iff]

/-- What is no load passes the memory stage as it is (R115). -/
theorem memNext_of_not_load {s : State} (h : ¬ s.LoadInEx) : memNext s = s.ex := by
  simp_all [memNext]

/-- Settles O24: the new `lcr` is the destination of the new `WB`, which was in `MEM`. -/
theorem stagesAdvance : Obligations.StagesAdvance := by
  refine fun s hl => ⟨fun t hstep hf => ?_, step_of_load_outside hl⟩
  obtain ⟨hready, -, -, hwb, hlcr, hmem, hcycle, -, hpar, -⟩ := (step_kind hl hstep).older hf
  rw [nextLcr_eq] at hlcr
  refine ⟨hwb, hlcr, fun hload => ?_, fun hload => ?_, fun hv hw => ?_, hcycle⟩
  · rw [hmem]
    exact memNext_of_load hready hload
  · rw [hmem, memNext_of_not_load hload]
  · rw [hwb] at hv hw
    rw [hlcr, if_pos ⟨hv, hw⟩, hwb, hpar]

/-! ### The failure of a cycle (R119, R123) -/

theorem step_of_outOfImage {s : State} {a : Addr} (hl : s.Live) (hm : s.MemoryStageReady)
    (hp : presented s = .outOfImage a) : step s = .next (raise (.fetchOutOfImage a) s) := by
  obtain ⟨hfailed, hhalted⟩ := hl
  simp [step, hfailed, hhalted, hp, failingDecode_of_ready hm]

/-- Port B's failure is reported even when port A stalls (R123, R137). -/
theorem readOperands_of_portB_error {s : State} {ra rb : RegIdx} {q : ForwardResult} {f : Fault}
    (ha : query s ra = .ok q) (hb : query s rb = .error f) : readOperands s ra rb = .fails f := by
  simp [readOperands, ha, hb]

/-- Settles O25: each failure, older than what comes after it, is raised, and the next step answers it. -/
theorem oldestFailureIsReported : Obligations.OldestFailureIsReported := by
  intro s hl failsWith
  have hfails {f : Fault} (h : step s = .next (raise f s)) : failsWith f := ⟨h, step_fault_iff.2 rfl⟩
  refine ⟨fun hload hout => ?_, fun hm hv ho => ?_, fun hm hv ho hk => ?_, fun i f hm hp hq => ?_,
    fun i q f hm hp hqa hqb => ?_⟩
  · exact hfails (step_of_load_outside hl hload hout)
  · exact hfails (step_of_outOfImage hl hm (by simp [presented, hv, ho]))
  · exact hfails (step_of_unknown hl hm (presented_of_unknown hv ho hk))
  · exact hfails (step_of_readOperands_fails hl hm hp (readOperands_of_portA_error hq i.portB))
  · exact hfails (step_of_readOperands_fails hl hm hp (readOperands_of_portB_error hqa hqb))

/-! ### From decode to the end (R111, R156) -/

/-- What is in decode and neither waits nor fails is in `EX` next (R118). -/
theorem StepKind.ex_of_issue {s t : State} {i : Instr} (h : StepKind s t) (hf : t.failed = none)
    (hp : presented s = .instruction i) (hw : ¬ s.Waits) : ∃ va, t.ex = issuedStage s i va := by
  cases h with
  | fails f _ => cases hf
  | waits _ hw' => exact absurd hw' hw
  | empty _ hp' => cases hp.symm.trans hp'
  | issues j va vb _ hp' _ _ =>
    cases hp.symm.trans hp'
    exact ⟨va, rfl⟩

/-- Settles O49: one cycle a stage, and in `WB` the write-back of O23. -/
theorem retiredFourCyclesAfterDecode : Obligations.RetiredFourCyclesAfterDecode := by
  intro s t u w i hwf hl hp hnw hst hft hret f d v
  obtain ⟨m, htm, hml, hmu, hul, huw, hfw⟩ := hret.cycles
  obtain ⟨htl, -, -, huwb, hup⟩ := hret.inWb
  obtain ⟨va, hex⟩ := (step_kind hl hst).ex_of_issue hft hp hnw
  obtain ⟨-, -, -, -, -, -, hct, -, hpt, -⟩ := (step_kind hl hst).older hft
  obtain ⟨-, -, -, -, -, hmm, hcm, -⟩ := (step_kind htl htm).older hml.1
  obtain ⟨-, -, -, -, -, -, hcu, -⟩ := (step_kind hml hmu).older hul.1
  obtain ⟨-, -, -, -, -, -, hcw, -⟩ := (step_kind hul huw).older hfw
  obtain ⟨hmv, hmi⟩ : m.mem.valid = true ∧ m.mem.instr = f := by simp [hmm, hex, issuedStage, f]
  obtain ⟨hv, hi, hrw⟩ : u.wb.valid = true ∧ u.wb.instr = f ∧ u.wb.regWrite = i.regWrite := by
    simp [huwb, hex, issuedStage, f]
  have hcycle : u.cycle = s.cycle + 3 := by omega
  obtain ⟨hcommit, -, -, hhalt⟩ := writeBackCommits u w hul huw hfw
  rw [hup.trans hpt] at hcommit hhalt
  have hdest : effectiveDestination s.params.opc u.wb.instr = d := by rw [hi]
  rw [hdest] at hcommit
  refine ⟨⟨hct, by rw [hex]; rfl, by rw [hex]; rfl⟩, fun m' htm' => ?_, ⟨hcycle, hv, hi⟩, by omega,
    fun hiw hd => ?_, ?_⟩
  · cases htm.symm.trans htm'
    exact ⟨by omega, hmv, hmi⟩
  · obtain ⟨hreg, hev, -⟩ := hcommit ⟨hv, hrw.trans hiw, hd⟩
    rw [hcycle] at hev
    exact ⟨hev, hreg⟩
  · rw [hhalt, hi]
    exact and_iff_right hv

end Sys2Proof.Machine
end

section
/-! A failure is terminal (R123, R138): the cycle that meets it changes `failed` only, and the core's every later
step answers it. -/

namespace Sys2Proof.Machine

/-- A step after which a failure stands recorded, where none was, is the cycle that records it and nothing else:
a halted core stays as it is, and any other cycle leaves `failed` empty. -/
theorem eq_raise_of_step_failed {s t : State} {f : Fault} (hs : s.failed = none) (hst : step s = .next t)
    (hf : t.failed = some f) : t = raise f s := by
  rcases step_next hst with ⟨-, -, rfl⟩ | ⟨hl, hk⟩
  · exact nomatch hs.symm.trans hf
  · rcases hk.fails_or_failed_none hl with ⟨g, -, rfl⟩ | hnone
    · cases hf
      rfl
    · exact nomatch hnone.symm.trans hf

/-- Settles O26: the failing cycle is `raise`, and every run from a raised failure answers it. -/
theorem failureIsTerminal : Obligations.FailureIsTerminal := by
  intro s t f hs hst hf
  obtain rfl := eq_raise_of_step_failed hs hst hf
  exact ⟨rfl, fun n => run_succ_raise n f s⟩

end Sys2Proof.Machine
end

section
/-! The cycles of a run from its launch: how far the first instruction has come in the first of them (R149), and how
many a normal run takes (R156). -/

namespace Sys2Proof.Machine

open Sys2Proof.Machine.State

/-! ### The pipeline fills (R29, R73, R111, R149) -/

/-- What the first instruction has not reached `n` cycles after a launch is empty (R29, R111). -/
structure State.EmptyAhead (s : State) (n : Nat) : Prop where
  ifid : n = 0 → s.ifid.valid = false
  ex : n ≤ 1 → s.ex.valid = false
  mem : n ≤ 2 → s.mem.valid = false
  wb : n ≤ 3 → s.wb.valid = false

theorem emptyAhead_launch (l : Launch) : (State.launch l).EmptyAhead 0 :=
  ⟨fun _ => rfl, fun _ => rfl, fun _ => rfl, fun _ => rfl⟩

theorem State.EmptyAhead.succ {s : State} {n : Nat} (h : s.EmptyAhead n) : s.EmptyAhead (n + 1) :=
  ⟨(nomatch ·), fun hn => h.ex (by omega), fun hn => h.mem (by omega), fun hn => h.wb (by omega)⟩

/-- A cycle that does not fail takes each stage from the one before it. -/
theorem StepKind.emptyAhead {s t : State} {n : Nat} (hk : StepKind s t) (hf : t.failed = none)
    (h : s.EmptyAhead n) : t.EmptyAhead (n + 1) := by
  obtain ⟨-, -, -, hwb, -, hmem, -⟩ := hk.older hf
  refine ⟨(nomatch ·), fun hn => ?_, fun hn => ?_, fun hn => ?_⟩
  · obtain ⟨hex, -⟩ := hk.of_decode_empty hf (presented_of_invalid (h.ifid (by omega)))
    rw [hex]
    rfl
  · rw [hmem, memNext_valid]
    exact h.ex (by omega)
  · rw [hwb]
    exact h.mem (by omega)

/-- A core that stays or fails keeps its stages, and any other cycle moves them on by one. -/
theorem emptyAhead_step {s t : State} {n : Nat} (hs : step s = .next t) (h : s.EmptyAhead n) :
    t.EmptyAhead (n + 1) := by
  rcases step_next hs with ⟨-, -, rfl⟩ | ⟨hl, hk⟩
  · exact h.succ
  · rcases hk.fails_or_failed_none hl with ⟨f, -, rfl⟩ | hf
    · exact ⟨h.succ.ifid, h.succ.ex, h.succ.mem, h.succ.wb⟩
    · exact hk.emptyAhead hf h

theorem emptyAhead_run {s t : State} {m n : Nat} (hrun : run n s = .next t) (h : s.EmptyAhead m) :
    t.EmptyAhead (m + n) := by
  induction n generalizing s m with
  | zero => cases hrun; exact h
  | succ n ih =>
    obtain ⟨u, hu, ht⟩ := run_succ_next.1 hrun
    rw [Nat.add_comm n 1, ← Nat.add_assoc]
    exact ih ht (emptyAhead_step hu h)

/-- A query that meets bubbles in `MEM` and `WB` and no writer in `EX` finds nothing (R69, R73). -/
theorem query_of_mem_wb_empty {s : State} (hm : s.mem.valid = false) (hw : s.wb.valid = false) {r : RegIdx}
    (hex : stageHit s.params.opc r s.ex = false) :
    query s r = .ok (if r = 0#4 then .value 0#32 else .notFound) := by
  have hm' : (s.mem.valid && s.mem.regWrite) = false := by rw [hm]; rfl
  have hw' : (s.wb.valid && s.wb.regWrite) = false := by rw [hw]; rfl
  rw [query, resolve_eq, hex, stageHit_idle hm', wbBad_idle hw', wbHit_idle hw']
  split <;> rfl

/-- Cycle 0 finds nothing in decode and fetches the word at address 0 (R29, R121). -/
theorem run_one_launch (l : Launch) : run 1 (State.launch l) =
    .next (fetchStage (State.launch l) (.sequential 1#12) false (shiftStages .bubble .bubble (State.launch l))) := rfl

/-- Settles O48: cycle 0 is a fetch cycle, and the queries of the first cycles meet the stages that are still
empty. -/
theorem firstCyclesAfterALaunch : Obligations.FirstCyclesAfterALaunch := by
  intro l n s hrun
  have hempty : s.EmptyAhead n := Nat.zero_add n ▸ emptyAhead_run hrun (emptyAhead_launch l)
  refine ⟨?_, fun hn => ?_, fun hn => ?_, hempty.wb⟩
  · rintro rfl
    cases (run_one_launch l).symm.trans hrun
    exact ⟨fetchedWord_eq (State.launch l), rfl, rfl, rfl⟩
  · have hex := hempty.ex hn
    have hmem := hempty.mem (by omega)
    have hwb := hempty.wb (by omega)
    refine ⟨by simp [hex, hmem, hwb], fun r => query_of_mem_wb_empty hmem hwb (stageHit_idle ?_ _ r)⟩
    rw [hex]
    rfl
  · have hmem := hempty.mem hn
    have hwb := hempty.wb (by omega)
    exact ⟨hmem, hwb, fun r => query_of_mem_wb_empty hmem hwb⟩

/-! ### The cycles of a normal run (R156) -/

theorem countCycles_of_step {s t : State} (p : State → Bool) (n : Nat) (hwf : s.params.wf = true)
    (hl : s.Live) (hs : step s = .next t) :
    countCycles p (n + 1) s = (if p s then 1 else 0) + countCycles p n t := by
  cases ((stepIsAdvance s hwf).1 hl.1).symm.trans hs
  rfl

/-- A run to a live state has live states on its way. -/
theorem live_of_run {n : Nat} {s t : State} (h : run n s = .next t) (ht : t.Live) : s.Live := by
  have hf := failed_none_of_run h ht.1
  refine ⟨hf, Bool.eq_false_iff.2 fun hh => ?_⟩
  cases (run_of_halted hf hh n).symm.trans h
  exact nomatch hh.symm.trans ht.2

section
variable {l : Launch} {s t u : State} {v : View}

/-- While the core runs, it stands where the view stands. -/
theorem Sim.exists_of_live (h : Sim l s v) (hs : Machine.step s = .next t) (ht : t.Live) : ∃ w, Sim l t w := by
  rcases h.step hs with ⟨hsim, -⟩ | hagree
  · exact ⟨v, hsim⟩
  · obtain ⟨w, hw⟩ := hagree.of_live ht
    rw [hw] at hagree
    cases hagree with
    | running hsim => exact ⟨w, hsim⟩

/-- `overhead_step` summed over a run: the cycles are those that issue, those that wait, and what they add to the
overhead. -/
theorem Sim.overhead_run {n : Nat} (h : Sim l s v) (hrun : Machine.run n s = .next u) (hu : u.Live)
    (hs : Machine.step u = .next t) (hf : t.failed = none) :
    s.overhead + (n + 1) = countCycles issuesNow (n + 1) s + countCycles waitsNow (n + 1) s + t.overhead := by
  induction n generalizing s v with
  | zero =>
    cases hrun
    have hcycle := overhead_step h hs hf
    have hcount := fun p => countCycles_of_step p 0 h.inv.launchWf.2 h.live hs
    rw [hcount, hcount]
    simpa [countCycles] using hcycle
  | succ n ih =>
    obtain ⟨s', hs', hrun'⟩ := run_succ_next.1 hrun
    have hl' := live_of_run hrun' hu
    obtain ⟨w, hw⟩ := h.exists_of_live hs' hl'
    have hcycle := overhead_step h hs' hl'.1
    have hrest := ih hw hrun'
    have hcount := fun p => countCycles_of_step p (n + 1) h.inv.launchWf.2 h.live hs'
    rw [hcount, hcount]
    omega

end

/-- Settles O45: a launch has no overhead, and a run that has ended normally has the four cycles of the first fetch and
of the `HALT` on its way to the end of `WB`. -/
theorem normalRunCycleCount : Obligations.NormalRunCycleCount := by
  intro l n s t hwf hrun hh hs ht
  obtain ⟨hl, hk⟩ : s.Live ∧ StepKind s t := by
    rcases step_next hs with ⟨-, hhalt, -⟩ | hlive
    · exact nomatch hh.symm.trans hhalt
    · exact hlive
  have hf : t.failed = none := by
    rcases hk.fails_or_failed_none hl with ⟨f, -, rfl⟩ | hf
    · exact nomatch hh.symm.trans ht
    · exact hf
  have hcount := (sim_launch (inv_launch hwf)).overhead_run hrun hl hs hf
  have hstart : (State.launch l).overhead = 0 := rfl
  have hend : t.overhead = 4 := if_pos ht
  omega

end Sys2Proof.Machine
end
